-- ==== Sys2Proof/Word.lean ====
section
/-! DEFINITION. The words of the D5700 (spec/00_scope.md R4, spec/10_state.md R10 to R18): every
quantity is unsigned, bit 0 is the least significant bit. -/

namespace Sys2Proof

/-- A register, a memory cell, the timer counter (R4: `XLEN`, `TW`). -/
abbrev Byte := BitVec 8

/-- One field of the instruction word: a register index, a row or a column (30_encoding.md R72). -/
abbrev Nibble := BitVec 4

/-- A 12-bit address: the address register, the operand of JUMP and SET_ADDRESS (R4: `AW`). -/
abbrev Addr := BitVec 12

/-- The program counter as it is stored: 13 bits, since an advance is not truncated to 12
(10_state.md R14). -/
abbrev Pc := BitVec 13

/-- The instruction word (R4: `ILEN`). -/
abbrev Word := BitVec 16

end Sys2Proof
end

