-- ==== Sys2Proof/Syntax.lean ====
section
/-! DEFINITION. The instructions: one constructor for each row of spec/opcode_table.json, its
arguments the fields of the row's format (spec/30_encoding.md R72, R74). A register field is the
nibble the word holds: 8..15 decode to the instruction and fault when it executes (R77). -/

namespace Sys2Proof

/-- The 17 rows of the decode table of R74, HALT first. -/
inductive Instr where
  /-- HALT, the whole word 0x0000 (R106). -/
  | halt
  /-- STORE rX, imm8 (R130). -/
  | store (rX : Nibble) (imm8 : Byte)
  /-- ADD rX, rY, rZ: sources `rX`, `rY`, destination `rZ` (R131). -/
  | add (rX rY rZ : Nibble)
  /-- SUB rX, rY, rZ: minuend `rX`, subtrahend `rY`, destination `rZ` (R132). -/
  | sub (rX rY rZ : Nibble)
  /-- READ rX (R152). -/
  | read (rX : Nibble)
  /-- WRITE rX (R153). -/
  | write (rX : Nibble)
  /-- JUMP addr12 (R170). -/
  | jump (addr12 : Addr)
  /-- READ_KEYBOARD rX (R192). -/
  | readKeyboard (rX : Nibble)
  /-- SWITCH_MEMORY (R151). -/
  | switchMemory
  /-- SKIP_EQ rX, rY (R171). -/
  | skipEq (rX rY : Nibble)
  /-- SKIP_NEQ rX, rY (R172). -/
  | skipNeq (rX rY : Nibble)
  /-- SET_ADDRESS addr12 (R150). -/
  | setAddress (addr12 : Addr)
  /-- SET_TIMER val8 (R190). -/
  | setTimer (val8 : Byte)
  /-- READ_TIMER rX (R191). -/
  | readTimer (rX : Nibble)
  /-- BCD rX (R154). -/
  | bcd (rX : Nibble)
  /-- TO_ASCII rX, rY: source `rX`, destination `rY` (R133). -/
  | toAscii (rX rY : Nibble)
  /-- DRAW rX, row, col: `row` and `col` are numbers, not registers (R193, R80). -/
  | draw (rX row col : Nibble)
  deriving DecidableEq, Repr

end Sys2Proof
end

