-- ==== Sys2Proof/WellFormed.lean ====
section
/-! DEFINITION. Which instructions have an encoding. Every field is as wide as its place in the word
(spec/30_encoding.md R72), so the one term without an encoding is `STORE r0, 0`: its word is the
halt sentinel (R75, R81). A register field above 7 is well formed: such a word decodes, and faults
when it executes (R77). -/

namespace Sys2Proof

/-- The instruction is what some word decodes to. -/
def Instr.wellFormed : Instr → Bool
  | .halt => true
  | .store rX imm8 => !(rX == 0 && imm8 == 0)
  | .add _ _ _ => true
  | .sub _ _ _ => true
  | .read _ => true
  | .write _ => true
  | .jump _ => true
  | .readKeyboard _ => true
  | .switchMemory => true
  | .skipEq _ _ => true
  | .skipNeq _ _ => true
  | .setAddress _ => true
  | .setTimer _ => true
  | .readTimer _ => true
  | .bcd _ => true
  | .toAscii _ _ => true
  | .draw _ _ _ => true

end Sys2Proof
end

