-- ==== Sys2Proof/Decode.lean ====
section
/-! DEFINITION. The decoder and the encoder, both from the tables of spec/30_encoding.md (R71 to R76).
The bits R72 marks `-` are not examined (R76). Field positions and ignored bits are the spec's
decisions D1 and D2, the byte order its D3: DEDUCED, log 17. -/

namespace Sys2Proof

/-- R79: the decoder's defensive failure, for an opcode outside 0..15. No 16-bit word meets it. -/
structure UnknownOpcode where
  opcode : Nat
  deriving DecidableEq, Repr

/-- Why bytes are no instruction. -/
inductive DecodeError where
  /-- Fewer than the two bytes of a word (R70) stand in the list; `len` of them do. -/
  | truncated (len : Nat)
  /-- R79. -/
  | unknownOpcode (opcode : Nat)
  deriving DecidableEq, Repr

/-- R71: `(word >> 12) & 0xF`. -/
def opcodeOf (w : Word) : Nat := (w.toNat >>> 12) % 16

/-- Bits 11..8, the first operand (R73). -/
def fieldX (w : Word) : Nibble := w.extractLsb' 8 4

/-- Bits 7..4, the second operand (R73). -/
def fieldY (w : Word) : Nibble := w.extractLsb' 4 4

/-- Bits 3..0, the third operand (R73). -/
def fieldZ (w : Word) : Nibble := w.extractLsb' 0 4

/-- Bits 7..0, the immediate of format `RI`. -/
def fieldImm8 (w : Word) : Byte := w.extractLsb' 0 8

/-- Bits 11..4, the value of format `I`. -/
def fieldVal8 (w : Word) : Byte := w.extractLsb' 4 8

/-- Bits 11..0, the address of format `A`. -/
def fieldAddr12 (w : Word) : Addr := w.extractLsb' 0 12

/-- The rows of R74 below HALT, by opcode. -/
def decodeOpcode (opcode : Nat) (w : Word) : Except UnknownOpcode Instr :=
  match opcode with
  | 0x0 => .ok (.store (fieldX w) (fieldImm8 w))
  | 0x1 => .ok (.add (fieldX w) (fieldY w) (fieldZ w))
  | 0x2 => .ok (.sub (fieldX w) (fieldY w) (fieldZ w))
  | 0x3 => .ok (.read (fieldX w))
  | 0x4 => .ok (.write (fieldX w))
  | 0x5 => .ok (.jump (fieldAddr12 w))
  | 0x6 => .ok (.readKeyboard (fieldX w))
  | 0x7 => .ok .switchMemory
  | 0x8 => .ok (.skipEq (fieldX w) (fieldY w))
  | 0x9 => .ok (.skipNeq (fieldX w) (fieldY w))
  | 0xA => .ok (.setAddress (fieldAddr12 w))
  | 0xB => .ok (.setTimer (fieldVal8 w))
  | 0xC => .ok (.readTimer (fieldX w))
  | 0xD => .ok (.bcd (fieldX w))
  | 0xE => .ok (.toAscii (fieldX w) (fieldY w))
  | 0xF => .ok (.draw (fieldX w) (fieldY w) (fieldZ w))
  | n => .error ⟨n⟩

/-- R74, R75: the halt sentinel first, then the 16-way decode. -/
def decodeWord (w : Word) : Except UnknownOpcode Instr :=
  if w = 0 then .ok .halt else decodeOpcode (opcodeOf w) w

/-- The decoder on bytes as ROM holds them, the high byte first (R70, 20_memory.md R47): the
instruction and the bytes after it. -/
def decode : List Byte → Except DecodeError (Instr × List Byte)
  | [] => .error (.truncated 0)
  | [_] => .error (.truncated 1)
  | hi :: lo :: rest =>
    match decodeWord (hi ++ lo) with
    | .ok i => .ok (i, rest)
    | .error e => .error (.unknownOpcode e.opcode)

/-- The high byte of a word, which stands at the lower address (20_memory.md R47). -/
def highByte (w : Word) : Byte := w.extractLsb' 8 8

/-- The low byte of a word. -/
def lowByte (w : Word) : Byte := w.extractLsb' 0 8

/-- What this model's decoder reads from an instruction whose bits are `w` (bit 0 the least
significant bit of the word), of which `nbits` are given and the rest are 0. -/
def decodeTableWord (nbits w : Nat) : Option Instr :=
  let word : Word := BitVec.ofNat 16 (w % 2 ^ nbits)
  match decode [highByte word, lowByte word] with
  | .ok (i, _) => some i
  | .error _ => none

/-- A word from its value as R80 writes it; every value below is less than 2^16. -/
def wordOf (n : Nat) : Word := BitVec.ofNat 16 n

/-- The canonical word of an instruction, as the table of R80 gives it: the ignored bits are zero (R76). -/
def encode : Instr → Word
  | .halt => wordOf 0x0000
  | .store rX imm8 => wordOf (0x0000 + rX.toNat * 0x100 + imm8.toNat)
  | .add rX rY rZ => wordOf (0x1000 + rX.toNat * 0x100 + rY.toNat * 0x10 + rZ.toNat)
  | .sub rX rY rZ => wordOf (0x2000 + rX.toNat * 0x100 + rY.toNat * 0x10 + rZ.toNat)
  | .read rX => wordOf (0x3000 + rX.toNat * 0x100)
  | .write rX => wordOf (0x4000 + rX.toNat * 0x100)
  | .jump addr12 => wordOf (0x5000 + addr12.toNat)
  | .readKeyboard rX => wordOf (0x6000 + rX.toNat * 0x100)
  | .switchMemory => wordOf 0x7000
  | .skipEq rX rY => wordOf (0x8000 + rX.toNat * 0x100 + rY.toNat * 0x10)
  | .skipNeq rX rY => wordOf (0x9000 + rX.toNat * 0x100 + rY.toNat * 0x10)
  | .setAddress addr12 => wordOf (0xA000 + addr12.toNat)
  | .setTimer val8 => wordOf (0xB000 + val8.toNat * 0x10)
  | .readTimer rX => wordOf (0xC000 + rX.toNat * 0x100)
  | .bcd rX => wordOf (0xD000 + rX.toNat * 0x100)
  | .toAscii rX rY => wordOf (0xE000 + rX.toNat * 0x100 + rY.toNat * 0x10)
  | .draw rX row col => wordOf (0xF000 + rX.toNat * 0x100 + row.toNat * 0x10 + col.toNat)

/-- The two bytes of an instruction in the order ROM holds them. -/
def encodeBytes (i : Instr) : List Byte := [highByte (encode i), lowByte (encode i)]

/-- The opcode of an instruction: its row in the table of R74. -/
def Instr.opcode : Instr → Nat
  | .halt => 0x0
  | .store _ _ => 0x0
  | .add _ _ _ => 0x1
  | .sub _ _ _ => 0x2
  | .read _ => 0x3
  | .write _ => 0x4
  | .jump _ => 0x5
  | .readKeyboard _ => 0x6
  | .switchMemory => 0x7
  | .skipEq _ _ => 0x8
  | .skipNeq _ _ => 0x9
  | .setAddress _ => 0xA
  | .setTimer _ => 0xB
  | .readTimer _ => 0xC
  | .bcd _ => 0xD
  | .toAscii _ _ => 0xE
  | .draw _ _ _ => 0xF

/-- The bits of a word that the format of its opcode uses: those R72 does not mark `-`. -/
def usedBits (opcode : Nat) : Word :=
  match opcode with
  | 0x3 | 0x4 | 0x6 | 0xC | 0xD => 0xFF00#16   -- format R
  | 0x7 => 0xF000#16                           -- format N
  | 0x8 | 0x9 | 0xB | 0xE => 0xFFF0#16         -- formats RR and I
  | _ => 0xFFFF#16                             -- formats H, RI, RRR, A, RNN

end Sys2Proof
end

