-- ==== Sys2Proof/Config.lean ====
section
/-! DEFINITION. What is fixed for the machine (spec/00_scope.md R4), and the free values: what the
spec leaves open, as constants with no body, so that no proof can see a value of them. -/

namespace Sys2Proof

/-- R4: the number of general registers. -/
def Config.nregs : Nat := 8

/-- R4: `ROM_SIZE` and `RAM_SIZE`, "size = 4096 for both" (20_memory.md R41). -/
def Config.bankSize : Nat := 4096

/-- R4: the display has this many rows and this many columns. -/
def Config.gridSize : Nat := 8

/-- The code of a blank cell of the display, the ASCII space (10_state.md R23).
PRESUMED: the spec takes the number from general knowledge (its D14); log 2. Unsafe. -/
def Config.blank : Byte := 0x20

/-- FREE VALUE (log 10): the byte the keyboard provider answers to its `n`-th call. Any byte is
possible (44_timer_io.md R192, 93_implementation_defined.md U7). Safe. -/
opaque Config.keyInput : Nat → Byte

/-- FREE VALUE (log 8): how many ticks fall before the `n`-th move made while Running, besides the
one that `tickWait` may force (60_exceptions.md R232, 93_implementation_defined.md U8). Safe. -/
opaque Config.tickDraw : Nat → Nat

/-- FREE VALUE (log 8): how many moves after the `n`-th a tick falls at the latest. It is any number:
R232 says only that the timer clock keeps ticking while RS = Running. Safe. -/
opaque Config.tickWait : Nat → Nat

end Sys2Proof
end

