-- ==== Sys2Proof/Machine/State.lean ====
section
/-! DEFINITION. The state of the D5700 (spec/10_state.md), all of it plain data, the three ways a step
can end, and the state at power-on (R28). -/

namespace Sys2Proof.Machine

/-- The bank-select flag M names the bank it selects (R17, the spec's D9). -/
inductive Bank where
  | ram
  | rom
  deriving DecidableEq, Repr

/-- The run state RS (R20). -/
inductive RunState where
  | stopped
  | running
  deriving DecidableEq, Repr

/-- The register fields of an instruction, in field order (R112). -/
inductive RegField where
  | rX
  | rY
  | rZ
  deriving DecidableEq, Repr

/-- The faults of a step with what each records (60_exceptions.md R211 to R218). They are causes of a
stop of the machine and end in a NEXT state (`boundary` in Ops.lean, R108); log 4. -/
inductive Cause where
  /-- R211: a step began with `pc` odd. -/
  | oddProgramCounter (pc : Pc)
  /-- R212: a step began with `pc` even and above 4094. -/
  | outOfBoundsFetch (pc : Pc)
  /-- R215: unreachable, kept because "the contract must still be total" (log 21). -/
  | unknownOpcode (opcode : Nat)
  /-- R214: a register field the instruction uses holds 8..15. -/
  | registerIndexOutOfRange (field : RegField) (value : Nibble)
  /-- R218: JUMP with an odd operand. -/
  | oddJumpTarget (target : Addr)
  /-- R216: TO_ASCII of a value above 15. -/
  | invalidDigit (value : Byte)
  /-- R217: DRAW of a code above 0x7F, or at a row or column above 7. -/
  | invalidDrawParameters (c : Byte) (row col : Nibble)
  /-- R213: an effective address above 4095; the address is the first that is. -/
  | outOfBoundsData (bank : Bank) (addr : Nat)
  deriving DecidableEq, Repr

/-- The events of the diagnostic output (60_exceptions.md R235). -/
inductive Diag where
  /-- R219: the clean end of a program; records `pc`. -/
  | halt (pc : Pc)
  /-- R108: a step ended in a fault. -/
  | fault (cause : Cause)
  /-- R220: a byte was written to ROM; a warning. -/
  | romWrite (addr : Nat) (value : Byte)
  deriving DecidableEq, Repr

/-- The calls of the display sink (60_exceptions.md R234): `x` is the column, `y` the row. -/
inductive DisplayCall where
  | set (x y : Fin 8) (c : Byte)
  | render
  deriving DecidableEq, Repr

/-- The host's operations on the machine (40_execution_cycle.md R100): run control (R102, R103), the
direct `execute()` (R110), the ROM load (20_memory.md R52), the direct `tick()` (60_exceptions.md
R230) and the accessors (R236), each with arguments of the widths R236 gives. The last three are the
reads of RS, of a byte of a bank and of a cell of the screen that "read anything" of R253 allows. -/
inductive HostOp where
  | start
  | stop
  | execute
  | tick
  | loadRom (image : List Byte)
  | getReg (index : Nat)
  | setReg (index : Nat) (value : Byte)
  | getPc
  | setPc (value : Addr)
  | getAddr
  | setAddr (value : Addr)
  | getBank
  | setBank (value : Bank)
  | getTimer
  | setTimer (value : Byte)
  | getRunState
  | getByte (bank : Bank) (addr : Nat)
  | getCell (row col : Fin 8)
  deriving DecidableEq, Repr

/-- What an operation hands back to the host (R236, R221, R52). -/
inductive HostReply where
  /-- A load or a register write was done. -/
  | done
  | reg (value : Byte)
  | pc (value : Pc)
  | addr (value : Addr)
  | bank (value : Bank)
  | timer (value : Byte)
  | runState (value : RunState)
  /-- A byte of a bank (R41). -/
  | byte (value : Byte)
  | cell (value : Byte)
  /-- R41, R43: a read of a bank outside 0..4095; not a machine fault. -/
  | outOfBounds (bank : Bank) (addr : Nat)
  /-- R236: a register access with an index outside 0..7; not a machine fault. -/
  | indexOutOfRange (index : Nat)
  /-- R52: an image of more than 4096 bytes; ROM is unchanged. -/
  | imageTooLarge (size : Nat)
  deriving DecidableEq, Repr

/-- One move of an agent (R100): the instruction clock fires, or the host asks for an operation. The
timer clock needs no move of its own: its ticks fall before every move while Running (log 8). -/
inductive Move where
  | clock
  | host (op : HostOp)
  deriving DecidableEq, Repr

/-- A bank: its bytes other than 0, at strictly rising addresses; an address not listed reads as 0
(R28, R50; log 18). -/
abbrev Memory := List Host.Cell

/-- The display grid, `screen[row][col]` (R23). -/
abbrev Screen := Vector (Vector Byte 8) 8

/-- The state tuple of 10_state.md, the display grid (R23), the outputs of the machine, and the model's
own four fields, which index the free values and order the agents. -/
structure State where
  /-- `x[0]` to `x[7]` (R10). -/
  x : Vector Byte 8
  /-- The program counter (R13, R14). -/
  pc : Pc
  /-- The address register A (R16). -/
  a : Addr
  /-- The bank-select flag M (R17). -/
  m : Bank
  /-- The timer counter T (R18); the timer mirror is this cell (R19). -/
  t : Byte
  /-- The run state RS (R20). -/
  rs : RunState
  /-- The ROM bank (R21). -/
  rom : Memory
  /-- The RAM bank (R22). -/
  ram : Memory
  /-- The display grid (R23). -/
  screen : Screen
  /-- The diagnostics emitted, oldest first (R235). Ghost state: no instruction reads it (log 14). -/
  diags : List Diag
  /-- The calls made to the display sink, oldest first (R234). Ghost state (log 15). -/
  displayCalls : List DisplayCall
  /-- The answers handed to the host, oldest first (R236). Ghost state (log 16). -/
  replies : List HostReply
  /-- The model's own: how many answers of the keyboard provider have been consumed (R233, log 10). -/
  keyReads : Nat
  /-- The model's own: how many moves have been made while Running (R232, log 8). -/
  tickDraws : Nat
  /-- The model's own: the moves to come, the next one first; with none left the instruction clock
  fires (R100, log 12). -/
  agenda : List Move
  /-- The model's own: the last step made was a direct `execute()` of the host. It tells where an
  accessor stands "between direct steps" (R253, log 29). -/
  hostStepped : Bool
  deriving DecidableEq, Repr

/-- No step of this machine ends outside its own states: what the spec calls a fault is a stop whose
effect R108 gives in full, a next state (log 4). So there is no constructor. -/
inductive Fault where
  deriving DecidableEq, Repr

/-- What the model gives no meaning. -/
inductive Refusal where
  /-- Raised by `exec` for an instruction without a meaning yet. Safe. -/
  | notModelled (mnemonic : String)
  /-- Raised by the host's LoadROM while RS = Running (R53, U10: `refuse`). Safe; log 13. -/
  | loadWhileRunning
  /-- Raised by the host's set of x, pc, A or M while RS = Running, unless it stands between direct
  steps (R253, U11: `refuse`). Safe; log 13. -/
  | setWhileRunning
  deriving DecidableEq, Repr

/-- Power-on (R28): the machine is Stopped at pc 0 with RAM selected, every register and byte 0 and
the screen blank. The zeros of `x`, `a`, `t` and the banks are the spec's decision D8 (log 1), the bank
its D9, the blank its D14 (log 2); the last four fields are the model's own (logs 9, 10, 12, 29). -/
def State.reset : State where
  x := Vector.replicate 8 0
  pc := 0
  a := 0
  m := .ram
  t := 0
  rs := .stopped
  rom := []
  ram := []
  screen := Vector.replicate 8 (Vector.replicate 8 Config.blank)
  diags := []
  displayCalls := []
  replies := []
  keyReads := 0
  tickDraws := 0
  agenda := []
  hostStepped := false

end Sys2Proof.Machine
end

