-- ==== Sys2Proof/Machine/Ops.lean ====
section
/-! DEFINITION. The named operations every meaning is built from: the memory cells, the state's
fields, the two banks (spec/20_memory.md R41, R42, R45), the display calls, the keyboard, the advance
of pc (R107), and taking a fault, which is ONE operation, `boundary` (spec/40_execution_cycle.md
R108). The machine has no return from a fault (R226). -/

namespace Sys2Proof.Machine

/-! ### A bank's cells -/

/-- The byte at an address; an address not listed reads as 0 (log 18). -/
def Memory.read : Memory → Nat → Byte
  | [], _ => 0
  | (k, v) :: rest, addr => if k = addr then v else Memory.read rest addr

/-- No entry for the address is left: it reads as 0. -/
def Memory.erase (mem : Memory) (addr : Nat) : Memory := mem.filter (fun cell => cell.1 != addr)

/-- An entry put before the first one at a higher address. -/
def Memory.insert : Memory → Nat → Byte → Memory
  | [], addr, v => [(addr, v)]
  | (k, w) :: rest, addr, v =>
    if addr < k then (addr, v) :: (k, w) :: rest else (k, w) :: Memory.insert rest addr v

/-- Set the byte at an address. A write of 0 removes the entry, so equal banks are equal lists. -/
def Memory.write (mem : Memory) (addr : Nat) (v : Byte) : Memory :=
  if v = 0 then Memory.erase mem addr else Memory.insert (Memory.erase mem addr) addr v

/-- The one canonical form: addresses strictly rise and lie in 0..4095 (R40), no byte listed is 0. -/
abbrev Memory.wf (mem : Memory) : Prop :=
  mem.Pairwise (fun c d => c.1 < d.1) ∧ ∀ c ∈ mem, c.1 < Config.bankSize ∧ c.2 ≠ 0

/-- The cells of an image copied in from address `start`, all other cells 0 (R52). -/
def Memory.image : Nat → List Byte → Memory
  | _, [] => []
  | start, b :: bs =>
    if b = 0 then Memory.image (start + 1) bs else (start, b) :: Memory.image (start + 1) bs

/-! ### The fields of the state -/

/-- `x[i]` (R10). -/
def State.reg (s : State) (i : Fin 8) : Byte := s.x.get i

/-- `x[i] <- v` (R10). -/
def State.setReg (s : State) (i : Fin 8) (v : Byte) : State := { s with x := s.x.set i.val v i.isLt }

/-- `pc <- p`. -/
def State.setPc (s : State) (p : Pc) : State := { s with pc := p }

/-- `A <- addr` (R16). -/
def State.setAddr (s : State) (addr : Addr) : State := { s with a := addr }

/-- `M <- b` (R17). -/
def State.setBank (s : State) (b : Bank) : State := { s with m := b }

/-- `T <- v` (R18), one indivisible write (R231). -/
def State.setTimer (s : State) (v : Byte) : State := { s with t := v }

/-- `RS <- r` (R20). -/
def State.setRunState (s : State) (r : RunState) : State := { s with rs := r }

/-- `emit d` (R235): the event goes to the end of the diagnostic output (log 14). -/
def State.emit (s : State) (d : Diag) : State := { s with diags := s.diags ++ [d] }

/-- An answer to the host (R236, log 16). -/
def State.reply (s : State) (r : HostReply) : State := { s with replies := s.replies ++ [r] }

/-- The moves to come (log 12). -/
def State.setAgenda (s : State) (ms : List Move) : State := { s with agenda := ms }

/-- A step is made, by the host directly or else by the instruction clock (log 29). -/
def State.noteStep (s : State) (byHost : Bool) : State := { s with hostStepped := byHost }

/-- One more move has been made while Running (log 8). -/
def State.countTickDraw (s : State) : State := { s with tickDraws := s.tickDraws + 1 }

/-- One more answer of the keyboard provider is consumed (R233). -/
def State.countKeyRead (s : State) : State := { s with keyReads := s.keyReads + 1 }

/-- The cells of the bank `b`. -/
def State.cells (s : State) : Bank → Memory
  | .ram => s.ram
  | .rom => s.rom

/-- The bank `b` gets the cells `mem`. -/
def State.setCells (s : State) (b : Bank) (mem : Memory) : State :=
  match b with
  | .ram => { s with ram := mem }
  | .rom => { s with rom := mem }

/-- The byte at address `addr` of bank `b`: `ROM[a]` and `RAM[a]` of 00_scope.md section 4. -/
def State.byteAt (s : State) (b : Bank) (addr : Nat) : Byte := (s.cells b).read addr

/-! ### The memory component -/

/-- R41: the byte at `addr` of bank `b`, or `OutOfBounds`; nothing changes. -/
def bankRead (b : Bank) (addr : Nat) (s : State) : Except Cause Byte :=
  if addr < Config.bankSize then .ok (s.byteAt b addr) else .error (.outOfBoundsData b addr)

/-- R44: a write to ROM is noted on the diagnostic output; a write to RAM is not. -/
def State.warnRomWrite (s : State) (b : Bank) (addr : Nat) (v : Byte) : State :=
  match b with
  | .ram => s
  | .rom => s.emit (.romWrite addr v)

/-- R42: the byte at `addr` of bank `b` becomes `v`, or `OutOfBounds`. -/
def bankWrite (b : Bank) (addr : Nat) (v : Byte) (s : State) : Except Cause State :=
  if addr < Config.bankSize then
    .ok ((s.setCells b ((s.cells b).write addr v)).warnRomWrite b addr v)
  else .error (.outOfBoundsData b addr)

/-- R45: a data read goes to the bank M selects. -/
def memRead (addr : Nat) (s : State) : Except Cause Byte := bankRead s.m addr s

/-- R45: a data write goes to the bank M selects. -/
def memWrite (addr : Nat) (v : Byte) (s : State) : Except Cause State := bankWrite s.m addr v s

/-! ### Keyboard and display -/

/-- R233: the byte the provider answers to the next call (log 10). -/
def State.keyAnswer (s : State) : Byte := Config.keyInput s.keyReads

/-- R234: "set cell (x,y) to character c", `x` the column and `y` the row. -/
def State.displaySet (s : State) (x y : Fin 8) (c : Byte) : State :=
  { s with
    screen := s.screen.set y.val ((s.screen.get y).set x.val c x.isLt) y.isLt
    displayCalls := s.displayCalls ++ [.set x y c] }

/-- R234: "render now". What the rendering looks like is out of scope (U13). -/
def State.displayRender (s : State) : State := { s with displayCalls := s.displayCalls ++ [.render] }

/-! ### How a step ends -/

/-- R107: the engine adds 2 to the value `pc` had at fetch, and does not truncate to 12 bits (R14,
the spec's D4; log 5). -/
def State.advance (s : State) : State := s.setPc (s.pc + 2)

/-- R171, R172: a taken skip adds 4 to the value `pc` had at fetch, not truncated (R174). -/
def State.skip (s : State) : State := s.setPc (s.pc + 4)

/-- R103, R30: `RS <- Stopped` and nothing else. -/
def State.stop (s : State) : State := s.setRunState .stopped

/-- TAKING A FAULT (R108): the diagnostic is emitted and RS <- Stopped; nothing else changes. -/
def State.raise (s : State) (c : Cause) : State := (s.emit (.fault c)).stop

/-- THE FAULT BOUNDARY (R108, the spec's D6; log 6): where the instruction's effect is a fault, every
state change it made is discarded and the fault is taken in the state `s` the step began with. -/
def boundary (s : State) (effect : Except Cause State) : Host.Outcome State Fault Refusal :=
  match effect with
  | .ok s' => .next s'
  | .error c => .next (s.raise c)

end Sys2Proof.Machine
end

