-- ==== Sys2Proof/Machine/Operands.lean ====
section
/-! DEFINITION. The operand forms and their checks: register fields (spec/30_encoding.md R77,
spec/60_exceptions.md R214), jump targets (R170), the digit of TO_ASCII (R133), the place of DRAW
(R193) and the effective addresses (spec/42_memory_access.md R155, spec/20_memory.md R51). The order
of the checks is R112 (the spec's D7; log 7). -/

namespace Sys2Proof.Machine

/-- A register field names a register only when it holds 0..7; otherwise the index is not wrapped and
not clamped (R11). -/
def regIndex (field : RegField) (n : Nibble) : Except Cause (Fin 8) :=
  if h : n.toNat < 8 then .ok ⟨n.toNat, h⟩ else .error (.registerIndexOutOfRange field n)

/-- R170: a target must be even; the 12 bits are the byte address, the 13th bit of pc is 0. -/
def jumpTarget (addr12 : Addr) : Except Cause Pc :=
  if addr12.toNat % 2 = 1 then .error (.oddJumpTarget addr12) else .ok (addr12.setWidth 13)

/-- R133: the whole register is tested, not its low nibble. -/
def hexDigit (v : Byte) : Except Cause Byte :=
  if v.toNat > 0x0F then .error (.invalidDigit v) else .ok v

/-- R193: one fault kind for the character code, the row and the column (C2). -/
def drawPlace (c : Byte) (row col : Nibble) : Except Cause (Fin 8 × Fin 8) :=
  if h : c.toNat ≤ 0x7F ∧ row.toNat < 8 ∧ col.toNat < 8 then
    .ok (⟨row.toNat, h.2.1⟩, ⟨col.toNat, h.2.2⟩)
  else .error (.invalidDrawParameters c row col)

/-- R155: the effective address of READ and WRITE, and the first of BCD. -/
def State.dataAddress (s : State) : Nat := s.a.toNat

/-- R154, R51: all three addresses of BCD must lie in 0..4095; the sums are not reduced modulo 4096
(the spec's D5; log 6), and the first that exceeds 4095 is the one recorded. -/
def bcdBounds (s : State) : Except Cause Unit :=
  if s.dataAddress + 2 > 4095 then
    .error (.outOfBoundsData s.m
      (if s.dataAddress + 1 > 4095 then s.dataAddress + 1 else s.dataAddress + 2))
  else .ok ()

end Sys2Proof.Machine
end

