-- ==== Sys2Proof/Machine/ControlTransfer.lean ====
section
/-! DEFINITION. JUMP, SKIP_EQ, SKIP_NEQ (spec/43_control_transfer.md). -/

namespace Sys2Proof.Machine

/-- R170: `pc <- addr12`, no advance; an odd target is refused and pc is not changed. -/
def execJump (addr12 : Addr) (s : State) : Host.Outcome State Fault Refusal :=
  boundary s do
    let target ← jumpTarget addr12
    .ok (s.setPc target)

/-- SKIP_EQ and SKIP_NEQ: check both fields, then skip the next word where the test holds. -/
def skipIf (test : Byte → Byte → Bool) (rX rY : Nibble) (s : State) : Except Cause State := do
  let i ← regIndex .rX rX
  let j ← regIndex .rY rY
  .ok (if test (s.reg i) (s.reg j) then s.skip else s.advance)

/-- R171: skip when the registers are equal. -/
def execSkipEq (rX rY : Nibble) (s : State) : Host.Outcome State Fault Refusal :=
  boundary s (skipIf (fun u v => u == v) rX rY s)

/-- R172: skip when the registers differ. -/
def execSkipNeq (rX rY : Nibble) (s : State) : Host.Outcome State Fault Refusal :=
  boundary s (skipIf (fun u v => u != v) rX rY s)

end Sys2Proof.Machine
end

