-- ==== Sys2Proof/Machine/Engine.lean ====
section
/-! DEFINITION. HALT (spec/40_execution_cycle.md R106), the one instruction the engine handles itself. -/

namespace Sys2Proof.Machine

/-- R106: `emit Halt(old); RS <- Stopped`; pc and everything else are kept. -/
def execHalt (s : State) : Host.Outcome State Fault Refusal :=
  .next ((s.emit (.halt s.pc)).stop)

end Sys2Proof.Machine
end

