-- ==== Sys2Proof/Machine/Flags.lean ====
section
/-! DEFINITION. The machine has no flags (spec/10_state.md R24, spec/41_register_arith.md R134: "no
overflow signaling", "no borrow flag"), so this file holds what its arithmetic computes instead: each
function converts to natural numbers, computes exactly, and narrows at the end. -/

namespace Sys2Proof.Machine

/-- R131, R134: `(a + b) mod 256`. -/
def addWrap (a b : Byte) : Byte := BitVec.ofNat 8 ((a.toNat + b.toNat) % 256)

/-- R132, R134: `(a - b) mod 256 = (a + 256 - b) mod 256`. -/
def subWrap (a b : Byte) : Byte := BitVec.ofNat 8 ((a.toNat + 256 - b.toNat) % 256)

/-- R154: the hundreds of a byte, 0..2. -/
def hundreds (v : Byte) : Byte := BitVec.ofNat 8 (v.toNat / 100)

/-- R154: the tens of a byte, 0..9. -/
def tens (v : Byte) : Byte := BitVec.ofNat 8 (v.toNat / 10 % 10)

/-- R154: the ones of a byte, 0..9. -/
def ones (v : Byte) : Byte := BitVec.ofNat 8 (v.toNat % 10)

/-- R133: the ASCII code of the hexadecimal digit of `v`, for `v` in 0..15.
PRESUMED: the numbers 0x30 and 0x41 are the spec's from general knowledge (its G2); log 24. -/
def asciiDigit (v : Byte) : Byte :=
  if v.toNat ≤ 9 then BitVec.ofNat 8 (0x30 + v.toNat)
  else BitVec.ofNat 8 (0x41 + (v.toNat - 10))

end Sys2Proof.Machine
end

