-- ==== Sys2Proof/Machine/MemoryAccess.lean ====
section
/-! DEFINITION. SET_ADDRESS, SWITCH_MEMORY, READ, WRITE, BCD (spec/42_memory_access.md). -/

namespace Sys2Proof.Machine

/-- R150: `A <- addr12`; every value is accepted. -/
def execSetAddress (addr12 : Addr) (s : State) : Host.Outcome State Fault Refusal :=
  .next (s.setAddr addr12).advance

/-- The other bank. -/
def Bank.other : Bank → Bank
  | .ram => .rom
  | .rom => .ram

/-- R151: `M <- (if M = RAM then ROM else RAM)`. -/
def execSwitchMemory (s : State) : Host.Outcome State Fault Refusal :=
  .next (s.setBank s.m.other).advance

/-- R152: `x[rX] <- MemRead(A, 1)`. -/
def execRead (rX : Nibble) (s : State) : Host.Outcome State Fault Refusal :=
  boundary s do
    let i ← regIndex .rX rX
    let v ← memRead s.dataAddress s
    .ok (s.setReg i v).advance

/-- R153: `MemWrite(A, 1, x[rX])`. -/
def execWrite (rX : Nibble) (s : State) : Host.Outcome State Fault Refusal :=
  boundary s do
    let i ← regIndex .rX rX
    let s' ← memWrite s.dataAddress (s.reg i) s
    .ok s'.advance

/-- R154: the three decimal digits of `x[rX]` go to A, A+1, A+2, in that order. -/
def execBcd (rX : Nibble) (s : State) : Host.Outcome State Fault Refusal :=
  boundary s do
    let i ← regIndex .rX rX
    let v := s.reg i
    bcdBounds s
    let s1 ← memWrite s.dataAddress (hundreds v) s
    let s2 ← memWrite (s.dataAddress + 1) (tens v) s1
    let s3 ← memWrite (s.dataAddress + 2) (ones v) s2
    .ok s3.advance

end Sys2Proof.Machine
end

