-- ==== Sys2Proof/Machine/RegisterArith.lean ====
section
/-! DEFINITION. STORE, ADD, SUB, TO_ASCII (spec/41_register_arith.md). -/

namespace Sys2Proof.Machine

/-- R130: `x[rX] <- imm8`. -/
def execStore (rX : Nibble) (imm8 : Byte) (s : State) : Host.Outcome State Fault Refusal :=
  boundary s do
    let i ← regIndex .rX rX
    .ok (s.setReg i imm8).advance

/-- ADD and SUB: check the three fields, read both sources, write the destination (R131, R132). -/
def arith3 (op : Byte → Byte → Byte) (rX rY rZ : Nibble) (s : State) : Except Cause State := do
  let i ← regIndex .rX rX
  let j ← regIndex .rY rY
  let k ← regIndex .rZ rZ
  .ok (s.setReg k (op (s.reg i) (s.reg j))).advance

/-- R131: `x[rZ] <- (x[rX] + x[rY]) mod 256`. -/
def execAdd (rX rY rZ : Nibble) (s : State) : Host.Outcome State Fault Refusal :=
  boundary s (arith3 addWrap rX rY rZ s)

/-- R132: `x[rZ] <- (x[rX] - x[rY]) mod 256`. -/
def execSub (rX rY rZ : Nibble) (s : State) : Host.Outcome State Fault Refusal :=
  boundary s (arith3 subWrap rX rY rZ s)

/-- R133: `x[rY]` becomes the ASCII code of the hexadecimal digit `x[rX]`. -/
def execToAscii (rX rY : Nibble) (s : State) : Host.Outcome State Fault Refusal :=
  boundary s do
    let i ← regIndex .rX rX
    let j ← regIndex .rY rY
    let v ← hexDigit (s.reg i)
    .ok (s.setReg j (asciiDigit v)).advance

end Sys2Proof.Machine
end

