-- ==== Sys2Proof/Machine/TimerIo.lean ====
section
/-! DEFINITION. SET_TIMER, READ_TIMER, READ_KEYBOARD, DRAW (spec/44_timer_io.md). -/

namespace Sys2Proof.Machine

/-- R190: `T <- val8`. -/
def execSetTimer (val8 : Byte) (s : State) : Host.Outcome State Fault Refusal :=
  .next (s.setTimer val8).advance

/-- R191: `x[rX] <- T`, the live counter. -/
def execReadTimer (rX : Nibble) (s : State) : Host.Outcome State Fault Refusal :=
  boundary s do
    let i ← regIndex .rX rX
    .ok (s.setReg i s.t).advance

/-- R192: `x[rX] <- KeyInput()`; the index is checked before the provider is called, so a faulting
READ_KEYBOARD consumes no answer (log 10). -/
def execReadKeyboard (rX : Nibble) (s : State) : Host.Outcome State Fault Refusal :=
  boundary s do
    let i ← regIndex .rX rX
    .ok ((s.setReg i s.keyAnswer).countKeyRead).advance

/-- R193: `screen[row][col] <- x[rX]`, set and then render (the spec's D17; log 22). -/
def execDraw (rX row col : Nibble) (s : State) : Host.Outcome State Fault Refusal :=
  boundary s do
    let i ← regIndex .rX rX
    let (r, k) ← drawPlace (s.reg i) row col
    .ok ((s.displaySet k r (s.reg i)).displayRender).advance

end Sys2Proof.Machine
end

