-- ==== Sys2Proof/Machine/Dispatch.lean ====
section
/-! DEFINITION. The meaning of each instruction: one arm for each constructor of Instr. -/

namespace Sys2Proof.Machine

def exec (i : Instr) (s : State) : Host.Outcome State Fault Refusal :=
  match i with
  | .halt => Sys2Proof.Machine.execHalt s
  | .store rX imm8 => Sys2Proof.Machine.execStore rX imm8 s
  | .add rX rY rZ => Sys2Proof.Machine.execAdd rX rY rZ s
  | .sub rX rY rZ => Sys2Proof.Machine.execSub rX rY rZ s
  | .read rX => Sys2Proof.Machine.execRead rX s
  | .write rX => Sys2Proof.Machine.execWrite rX s
  | .jump addr12 => Sys2Proof.Machine.execJump addr12 s
  | .readKeyboard rX => Sys2Proof.Machine.execReadKeyboard rX s
  | .switchMemory => Sys2Proof.Machine.execSwitchMemory s
  | .skipEq rX rY => Sys2Proof.Machine.execSkipEq rX rY s
  | .skipNeq rX rY => Sys2Proof.Machine.execSkipNeq rX rY s
  | .setAddress addr12 => Sys2Proof.Machine.execSetAddress addr12 s
  | .setTimer val8 => Sys2Proof.Machine.execSetTimer val8 s
  | .readTimer rX => Sys2Proof.Machine.execReadTimer rX s
  | .bcd rX => Sys2Proof.Machine.execBcd rX s
  | .toAscii rX rY => Sys2Proof.Machine.execToAscii rX rY s
  | .draw rX row col => Sys2Proof.Machine.execDraw rX row col s

end Sys2Proof.Machine
end

