-- ==== Sys2Proof/Machine/Cycle.lean ====
section
/-! DEFINITION. The fetch-decode-execute step `execute()` (spec/40_execution_cycle.md R104, R105). -/

namespace Sys2Proof.Machine

/-- R47: `Fetch16(a) = BankRead(ROM, a) ++ BankRead(ROM, a+1)`, whatever M is (R45). -/
def fetch16 (addr : Nat) (s : State) : Except Cause Word := do
  let hi ← bankRead .rom addr s
  let lo ← bankRead .rom (addr + 1) s
  .ok (hi ++ lo)

/-- R105: the evenness test comes first and reads no memory; then the bound; then the two bytes. -/
def fetch (s : State) : Except Cause Word :=
  if s.pc.toNat % 2 = 1 then .error (.oddProgramCounter s.pc)
  else if s.pc.toNat + 1 > 4095 then .error (.outOfBoundsFetch s.pc)
  else fetch16 s.pc.toNat s

/-- R104 steps 1 to 4: the instruction at pc, or why there is none. The decoder's failure is R215,
unreachable (R79; log 21). -/
def fetchDecode (s : State) : Except Cause Instr := do
  let w ← fetch s
  match decodeWord w with
  | .ok i => .ok i
  | .error e => .error (.unknownOpcode e.opcode)

/-- R104: `execute()`, one step, without a test of RS (R110). -/
def execute (s : State) : Host.Outcome State Fault Refusal :=
  match fetchDecode s with
  | .ok i => exec i s
  | .error c => .next (s.raise c)

end Sys2Proof.Machine
end

