-- ==== Sys2Proof/Machine/Timer.lean ====
section
/-! DEFINITION. The timer agent (spec/60_exceptions.md R229 to R232): its tick, and the free number of
ticks that fall before each move while the machine runs. -/

namespace Sys2Proof.Machine

/-- R229: one tick takes 1 from the counter when it is above 0, and leaves 0 alone. -/
def tickCount (t : Byte) : Byte := if t = 0 then 0 else t - 1

/-- R229: `Tick`, which changes nothing but T. -/
def State.tick (s : State) : State := s.setTimer (tickCount s.t)

/-- What `n` ticks leave of a counter: `max(t - n, 0)`. -/
def ticksCount (t : Byte) (n : Nat) : Byte := if t = 0 then 0 else BitVec.ofNat 8 (t.toNat - n)

/-- The free number of ticks before the `n`-th move made while Running. Any number, 0 included, is
possible at any one move; but ticks keep coming (R232): for each `k ≤ n` with `k + tickWait k = n` one
tick is forced here, so that no point of the run is without a later tick (log 8). -/
def ticksBefore (n : Nat) : Nat :=
  Config.tickDraw n +
    if (List.range (n + 1)).any (fun k => k + Config.tickWait k == n) then 1 else 0

/-- Time passes before a move. While Running a free number of ticks falls (R232); while Stopped the
timer's schedule does not run (R20, R230) and nothing changes. -/
def State.elapse (s : State) : State :=
  match s.rs with
  | .stopped => s
  | .running => (s.setTimer (ticksCount s.t (ticksBefore s.tickDraws))).countTickDraw

end Sys2Proof.Machine
end

