-- ==== Sys2Proof/Machine/HostOps.lean ====
section
/-! DEFINITION. The host's operations (spec/40_execution_cycle.md R102, R103, R110, spec/20_memory.md
R52, R53, spec/60_exceptions.md R230, R236), and the scheduled step of the instruction clock (R110). -/

namespace Sys2Proof.Machine

/-- R102: `pc <- 0; RS <- Running`; all other state is kept (R29, the spec's D21; log 23). -/
def State.start (s : State) : State := (s.setPc 0).setRunState .running

/-- R52: the ROM bank is replaced whole, or the image is too large and ROM is unchanged (log 23). -/
def State.loadRom (s : State) (image : List Byte) : State :=
  if image.length > Config.bankSize then s.reply (.imageTooLarge image.length)
  else (s.setCells .rom (Memory.image 0 image)).reply .done

/-- R236: a register access of the host, its index checked; a bad index touches nothing. -/
def withHostReg (s : State) (index : Nat) (act : Fin 8 → Host.Outcome State Fault Refusal) :
    Host.Outcome State Fault Refusal :=
  if h : index < 8 then act ⟨index, h⟩ else .next (s.reply (.indexOutOfRange index))

/-- A read of one byte of a bank by the host (R41, R253), `OutOfBounds` handed to it (log 16). -/
def State.hostRead (s : State) (b : Bank) (addr : Nat) : HostReply :=
  match bankRead b addr s with
  | .ok v => .byte v
  | .error _ => .outOfBounds b addr

/-- R53, R253: a load of a running machine has no meaning (log 13). -/
def whileStopped (s s' : State) : Host.Outcome State Fault Refusal :=
  match s.rs with
  | .stopped => .next s'
  | .running => .refused .loadWhileRunning

/-- Of the moves to come, the first that makes a step is a direct `execute()`; with none left it is the
instruction clock's (log 29). -/
def nextStepDirect : List Move → Bool
  | [] => false
  | .clock :: _ => false
  | .host .execute :: _ => true
  | .host _ :: rest => nextStepDirect rest

/-- R253: where the host may set a register: "while `Stopped` or between direct steps" (log 29). -/
def State.maySet (s : State) : Bool :=
  match s.rs with
  | .stopped => true
  | .running => s.hostStepped && nextStepDirect s.agenda

/-- U11: a set of a register beside the scheduled steps has no meaning (log 13). -/
def inPlace (s s' : State) : Host.Outcome State Fault Refusal :=
  if s.maySet then .next s' else .refused .setWhileRunning

/-- One operation of the host. A get answers in either run state, as one move between whole steps, the
model's choice (log 13); a set of T is serialised in either (R231); a set of x, pc, A or M must be in place. -/
def serve (op : HostOp) (s : State) : Host.Outcome State Fault Refusal :=
  match op with
  | .start => .next s.start
  | .stop => .next s.stop
  | .execute => execute (s.noteStep true)
  | .tick => .next s.tick
  | .loadRom image => whileStopped s (s.loadRom image)
  | .getReg n => withHostReg s n fun i => .next (s.reply (.reg (s.reg i)))
  | .setReg n v => withHostReg s n fun i => inPlace s ((s.setReg i v).reply .done)
  | .getPc => .next (s.reply (.pc s.pc))
  | .setPc v => inPlace s (s.setPc (v.setWidth 13))
  | .getAddr => .next (s.reply (.addr s.a))
  | .setAddr v => inPlace s (s.setAddr v)
  | .getBank => .next (s.reply (.bank s.m))
  | .setBank v => inPlace s (s.setBank v)
  | .getTimer => .next (s.reply (.timer s.t))
  | .setTimer v => .next (s.setTimer v)
  | .getRunState => .next (s.reply (.runState s.rs))
  | .getByte b addr => .next (s.reply (s.hostRead b addr))
  | .getCell row col => .next (s.reply (.cell ((s.screen.get row).get col)))

/-- R110: the instruction clock's callback performs one `execute()` while RS = Running, and does
nothing while Stopped (log 20). -/
def clockFires (s : State) : Host.Outcome State Fault Refusal :=
  match s.rs with
  | .running => execute (s.noteStep false)
  | .stopped => .next s

/-- The move that comes next, and the moves after it; with none left the instruction clock fires
(log 12). -/
def nextMove (s : State) : Move × List Move :=
  match s.agenda with
  | [] => (.clock, [])
  | mv :: rest => (mv, rest)

/-- One move of an agent (R100). -/
def perform (mv : Move) (s : State) : Host.Outcome State Fault Refusal :=
  match mv with
  | .clock => clockFires s
  | .host op => serve op s

/-- Put one instruction word where the next fetch reads it, and make the instruction clock the next
agent of a machine that runs: the stand-in for LoadROM and `start()` (log 3). A pc that no fetch
accepts is set to 0, as `start()` does. -/
def State.placeWord (s : State) (w : Word) : State :=
  let p : Pc := if s.pc.toNat % 2 = 0 ∧ s.pc.toNat ≤ 4094 then s.pc else 0
  { s with
    pc := p
    rom := (s.rom.write p.toNat (highByte w)).write (p.toNat + 1) (lowByte w)
    rs := .running
    agenda := [] }

end Sys2Proof.Machine
end

