-- ==== Sys2Proof/Machine/Step.lean ====
section
/-! DEFINITION. One step of the whole machine: time passes (the ticks that fall), then the agent whose
turn it is makes its one move (spec/40_execution_cycle.md R100, R109). -/

namespace Sys2Proof.Machine

/-- One move of the machine. -/
def step (s : State) : Host.Outcome State Fault Refusal :=
  perform (nextMove s).1 (s.elapse.setAgenda (nextMove s).2)

/-- `s` with one instruction of `nbits` bits, numbered as spec/opcode_table.json numbers them, placed so
that the very next step runs it (log 3). -/
def State.withFetchWord (s : State) (nbits w : Nat) : State :=
  s.placeWord (BitVec.ofNat 16 (w % 2 ^ nbits))

end Sys2Proof.Machine
end

