-- ==== Sys2Proof/Safety.lean ====
section
/-! DEFINITION. The terms the claims use: the parts of a state and what "only these parts change" means,
what a fault leaves (spec/40_execution_cycle.md R108), the registers an instruction names
(spec/10_state.md R12), and the invariant of the machine. -/

namespace Sys2Proof.Machine

/-- One observable part of a state: a register, one byte of one bank, one cell of the screen, or a
whole other field. -/
inductive Part where
  | reg (i : Fin 8)
  | pc
  | a
  | m
  | t
  | rs
  | cell (b : Bank) (addr : Nat)
  | screen (row col : Fin 8)
  | diags
  | displayCalls
  | replies
  | keyReads
  | tickDraws
  | agenda
  | hostStepped
  deriving DecidableEq, Repr

/-- The part is the same in both states; a byte of memory is what the model reads there. -/
def Part.Same (s t : State) : Part → Prop
  | .reg i => t.reg i = s.reg i
  | .pc => t.pc = s.pc
  | .a => t.a = s.a
  | .m => t.m = s.m
  | .t => t.t = s.t
  | .rs => t.rs = s.rs
  | .cell b addr => t.byteAt b addr = s.byteAt b addr
  | .screen row col => (t.screen.get row).get col = (s.screen.get row).get col
  | .diags => t.diags = s.diags
  | .displayCalls => t.displayCalls = s.displayCalls
  | .replies => t.replies = s.replies
  | .keyReads => t.keyReads = s.keyReads
  | .tickDraws => t.tickDraws = s.tickDraws
  | .agenda => t.agenda = s.agenda
  | .hostStepped => t.hostStepped = s.hostStepped

/-- Every part not in the list is the same in `t` as in `s`: the frame of what led from `s` to `t`. -/
def OnlyChanges (ps : List Part) (s t : State) : Prop := ∀ p, p ∉ ps → p.Same s t

/-- `t` is what a fault leaves of `s` (R108): Stopped, one Fault diagnostic more, all else the same. -/
def FaultedWith (c : Cause) (s t : State) : Prop :=
  t.rs = .stopped ∧ t.diags = s.diags ++ [.fault c] ∧ OnlyChanges [.rs, .diags] s t

/-- The instruction takes the fault `c` in the state `s`. -/
def TakesFault (i : Instr) (s : State) (c : Cause) : Prop :=
  ∃ t, exec i s = .next t ∧ FaultedWith c s t

/-- The field that names register `i`. -/
def regNo (i : Fin 8) : Nibble := BitVec.ofNat 4 i.val

/-- The register fields an instruction uses, in field order (30_encoding.md R74, R78). -/
def registerFields : Instr → List (RegField × Nibble)
  | .halt => []
  | .store rX _ => [(.rX, rX)]
  | .add rX rY rZ => [(.rX, rX), (.rY, rY), (.rZ, rZ)]
  | .sub rX rY rZ => [(.rX, rX), (.rY, rY), (.rZ, rZ)]
  | .read rX => [(.rX, rX)]
  | .write rX => [(.rX, rX)]
  | .jump _ => []
  | .readKeyboard rX => [(.rX, rX)]
  | .switchMemory => []
  | .skipEq rX rY => [(.rX, rX), (.rY, rY)]
  | .skipNeq rX rY => [(.rX, rX), (.rY, rY)]
  | .setAddress _ => []
  | .setTimer _ => []
  | .readTimer rX => [(.rX, rX)]
  | .bcd rX => [(.rX, rX)]
  | .toAscii rX rY => [(.rX, rX), (.rY, rY)]
  | .draw rX _ _ => [(.rX, rX)]

/-- The field that names the register an instruction writes (R12). -/
def destinationField : Instr → Option Nibble
  | .halt => none
  | .store rX _ => some rX
  | .add _ _ rZ => some rZ
  | .sub _ _ rZ => some rZ
  | .read rX => some rX
  | .write _ => none
  | .jump _ => none
  | .readKeyboard rX => some rX
  | .switchMemory => none
  | .skipEq _ _ => none
  | .skipNeq _ _ => none
  | .setAddress _ => none
  | .setTimer _ => none
  | .readTimer rX => some rX
  | .bcd _ => none
  | .toAscii _ rY => some rY
  | .draw _ _ _ => none

/-- R223: the spec's label of each event; no value of the machine depends on it (D12). -/
def Diag.label : Diag → Nat
  | .fault (.oddProgramCounter _) => 1
  | .fault (.outOfBoundsFetch _) => 2
  | .fault (.unknownOpcode _) => 3
  | .fault (.registerIndexOutOfRange _ _) => 4
  | .fault (.oddJumpTarget _) => 5
  | .fault (.invalidDigit _) => 6
  | .fault (.invalidDrawParameters _ _ _) => 7
  | .fault (.outOfBoundsData _ _) => 8
  | .halt _ => 9
  | .romWrite _ _ => 10

/-- The operation breaks a duty of R253 on a Running machine: a load, or a set of x, pc, A or M that
does not stand `between` direct steps. A set of T does not (R231), nor a register access that fails for
its index, nor a get (log 13). -/
def breaksDuty (between : Bool) : HostOp → Bool
  | .start => false
  | .stop => false
  | .execute => false
  | .tick => false
  | .loadRom _ => true
  | .getReg _ => false
  | .setReg n _ => decide (n < 8) && !between
  | .getPc => false
  | .setPc _ => !between
  | .getAddr => false
  | .setAddr _ => !between
  | .getBank => false
  | .setBank _ => !between
  | .getTimer => false
  | .setTimer _ => false
  | .getRunState => false
  | .getByte _ _ => false
  | .getCell _ _ => false

/-- What one call of the display sink does to the grid (60_exceptions.md R234). -/
def showCall (grid : Screen) : DisplayCall → Screen
  | .set x y c => grid.set y.val ((grid.get y).set x.val c x.isLt) y.isLt
  | .render => grid

/-- The grid after a list of calls, from the blank grid of power-on. -/
def shown (calls : List DisplayCall) : Screen := calls.foldl showCall State.reset.screen

/-- The call hands the sink a code in 0..0x7F (R234). -/
def legalCall : DisplayCall → Prop
  | .set _ _ c => c.toNat ≤ 0x7F
  | .render => True

/-- The invariant of the machine. Both banks are in canonical form; pc is one of the values R14 names
(even up to 4098, or odd up to 4095, after the host's accessor wrote it); every call of the display
sink was legal (R234); and the grid shows exactly the calls that were made (R23). -/
structure State.Inv (s : State) : Prop where
  rom_wf : s.rom.wf
  ram_wf : s.ram.wf
  pc_range : s.pc.toNat ≤ 4098 ∧ (s.pc.toNat % 2 = 1 → s.pc.toNat ≤ 4095)
  calls_legal : ∀ call ∈ s.displayCalls, legalCall call
  screen_shown : s.screen = shown s.displayCalls

end Sys2Proof.Machine
end

