-- ==== Sys2Proof/Certificates/Slice0/Obligations.lean ====
section
/-! DEFINITION. The statements for the provers. Each docstring names the rule of spec/ it formalises, or
says on which decision of the spec, or choice of the model, it rests. -/

open Sys2Proof Sys2Proof.Machine

/-! ### Encoding -/

/-- Decoding the canonical word of any instruction that has one gives the instruction back, every
operand at every value (30_encoding.md R82, derived there; field positions the spec's D1, log 17). -/
def Obligations.DecodeOfEncodeIsTheInstruction : Prop :=
  ∀ i : Instr, i.wellFormed = true → decodeWord (encode i) = .ok i

/-- Encoding what a word decodes to clears exactly the bits its format ignores (R82 derived, R76 the
spec's D2; log 17). -/
def Obligations.EncodeOfDecodeClearsIgnoredBits : Prop :=
  ∀ (w : Word) (i : Instr), decodeWord w = .ok i →
    i.wellFormed = true ∧ encode i = w &&& usedBits (opcodeOf w)

/-- Every 16-bit word decodes, to an instruction of the row its bits 15..12 select: the failure
UnknownOpcode is unreachable (R74, R79; the spec's D25, log 21). -/
def Obligations.EveryWordDecodesByItsOpcode : Prop :=
  ∀ w : Word, ∃ i, decodeWord w = .ok i ∧ i.opcode = w.toNat / 4096

/-- R75: the zero word, and no other, is HALT; every other word with opcode 0 is STORE. -/
def Obligations.ZeroWordAloneIsHalt : Prop :=
  (∀ w : Word, decodeWord w = .ok .halt ↔ w = 0x0000) ∧
  (∀ w : Word, w ≠ 0x0000 → w.toNat / 4096 = 0 →
    decodeWord w = .ok (.store (BitVec.ofNat 4 (w.toNat / 256)) (BitVec.ofNat 8 w.toNat))) ∧
  decodeWord 0x0100 = .ok (.store 1 0) ∧
  decodeWord 0x0001 = .ok (.store 0 1)

/-- R76 (the spec's D2; log 17): words of one opcode that agree on the bits its format uses decode to
the same instruction. -/
def Obligations.IgnoredBitsDoNotMatter : Prop :=
  ∀ w v : Word, opcodeOf w = opcodeOf v →
    w &&& usedBits (opcodeOf w) = v &&& usedBits (opcodeOf w) → decodeWord w = decodeWord v

/-- The decoder on bytes reads the high byte first, leaves the bytes after the word, and refuses fewer
than two bytes by name (30_encoding.md section 1; 20_memory.md section 3, derived there; log 17). That a
list too short is refused is the model's own choice (log 21). -/
def Obligations.DecoderReadsHighByteFirst : Prop :=
  (∀ (i : Instr) (rest : List Byte), i.wellFormed = true →
    decode (encodeBytes i ++ rest) = .ok (i, rest)) ∧
  (∀ i : Instr, (encodeBytes i).map BitVec.toNat
    = [(encode i).toNat / 256, (encode i).toNat % 256]) ∧
  (∀ bytes : List Byte, bytes.length < 2 → decode bytes = .error (.truncated bytes.length))

/-- Words of 95_test_vectors.md V-DEC and the instructions it gives them, written out by hand. -/
def Obligations.SampleWordsDecode : Prop :=
  decodeWord 0x07FF = .ok (.store 7 0xFF) ∧ decodeWord 0x1234 = .ok (.add 2 3 4) ∧
  decodeWord 0x2765 = .ok (.sub 7 6 5) ∧ decodeWord 0x35FF = .ok (.read 5) ∧
  decodeWord 0x5FFE = .ok (.jump 0xFFE) ∧ decodeWord 0x7ABC = .ok .switchMemory ∧
  decodeWord 0x812F = .ok (.skipEq 1 2) ∧ decodeWord 0xB010 = .ok (.setTimer 1) ∧
  decodeWord 0xF123 = .ok (.draw 1 2 3)

/-! ### The step and the fetch -/

/-- When the two ROM bytes at an even pc in 0..4094 decode to `i`: a firing of the instruction clock while
Running is `exec i`, after the ticks that fall first (`elapse`, which changes T and its own counter
only) and the note of who steps (`noteStep`, which changes its own field only); and so is a direct
`execute()`, in either run state (R104, R110 the spec's D18; the order of the agents and the note are
the model's, logs 8, 12 and 29). -/
def Obligations.StepRunsTheDecodedInstruction : Prop :=
  ∀ (s : State) (i : Instr), s.pc.toNat % 2 = 0 → s.pc.toNat ≤ 4094 →
    decodeWord (s.byteAt .rom s.pc.toNat ++ s.byteAt .rom (s.pc.toNat + 1)) = .ok i →
    (s.agenda = [] → s.rs = .running → step s = exec i (s.elapse.noteStep false)) ∧
    (∀ rest, s.agenda = .clock :: rest → s.rs = .running →
      step s = exec i ((s.elapse.setAgenda rest).noteStep false)) ∧
    (∀ rest, s.agenda = .host .execute :: rest →
      step s = exec i ((s.elapse.setAgenda rest).noteStep true)) ∧
    OnlyChanges [.t, .tickDraws] s s.elapse ∧
    ∀ byHost, OnlyChanges [.hostStepped] s (s.noteStep byHost)

/-- R211: a step that begins with pc odd faults with OddProgramCounter, whatever ROM holds, and changes
nothing but RS; no instruction makes an even pc odd, and the one move of any agent that does is the
host's write of an odd value through the pc accessor. -/
def Obligations.OddPcFaultsAndNoInstructionMakesOne : Prop :=
  (∀ s : State, s.pc.toNat % 2 = 1 →
    ∃ t, execute s = .next t ∧ FaultedWith (.oddProgramCounter s.pc) s t) ∧
  (∀ (i : Instr) (s t : State), exec i s = .next t → s.pc.toNat % 2 = 0 → t.pc.toNat % 2 = 0) ∧
  (∀ s t : State, step s = .next t → s.pc.toNat % 2 = 0 → t.pc.toNat % 2 = 1 →
    ∃ v : Addr, v.toNat % 2 = 1 ∧ (nextMove s).1 = .host (.setPc v))

/-- R212 (the spec's D4; log 5): a step that begins with pc even and above 4094 faults with OutOfBounds
at the fetch, and pc keeps its value. -/
def Obligations.FetchPastTheTopOfRomFaults : Prop :=
  ∀ s : State, s.pc.toNat % 2 = 0 → 4094 < s.pc.toNat →
    ∃ t, execute s = .next t ∧ FaultedWith (.outOfBoundsFetch s.pc) s t

/-- The word fetched depends on pc and on ROM alone: not on M, A, RS, RAM or any register (R45, R105 the
spec's D4). -/
def Obligations.FetchDependsOnPcAndRomAlone : Prop :=
  ∀ s s' : State, s'.pc = s.pc → (∀ addr, s'.byteAt .rom addr = s.byteAt .rom addr) →
    fetchDecode s' = fetchDecode s

/-- R56 (derived there): a byte that WRITE put into ROM is the byte the next fetch of that address
reads, as the high byte of the word at an even address and the low byte of the word before an odd. -/
def Obligations.WrittenCodeIsFetched : Prop :=
  ∀ (s : State) (i : Fin 8) (p : Pc), s.m = .rom → p.toNat % 2 = 0 → p.toNat ≤ 4094 →
    ∃ t, exec (.write (regNo i)) s = .next t ∧
      (s.a.toNat = p.toNat →
        fetch (t.setPc p) = .ok (s.reg i ++ s.byteAt .rom (p.toNat + 1))) ∧
      (s.a.toNat = p.toNat + 1 →
        fetch (t.setPc p) = .ok (s.byteAt .rom p.toNat ++ s.reg i))

/-- The word `withFetchWord` places is what the very next step runs, from every state (the model's
stand-in for a load and `start()`, log 3), after the ticks that fall and the note of who steps (log 29). -/
def Obligations.PlacedWordRunsNext : Prop :=
  ∀ (s : State) (w : Word) (i : Instr), decodeWord w = .ok i →
    step (s.withFetchWord 16 w.toNat) = exec i ((s.withFetchWord 16 w.toNat).elapse.noteStep false) ∧
    decodeTableWord 16 w.toNat = some i

/-! ### What each instruction does

Where a statement says what pc gains, the sum is in the 13 bits pc is stored in: that it is not truncated
to 12 is the spec's D4 (log 5), stated over all instructions by `PcAfterEveryInstruction`. -/

/-- HALT has no encoding but the zero word; it emits Halt(pc), sets RS to Stopped and changes nothing else,
pc included; so does the engine, in either run state, at an even address whose two bytes are zero, and
again at every further `execute()`; a later `start()` goes to address 0 (40_execution_cycle.md
section 3). That a direct `execute()` steps a Stopped machine is the spec's D18 (log 28). -/
def Obligations.HaltStopsCleanly : Prop :=
  (∀ w : Word, decodeWord w = .ok .halt ↔ w = 0x0000) ∧
  (∀ s : State, ∃ t, exec .halt s = .next t ∧ t.rs = .stopped ∧
    t.diags = s.diags ++ [.halt s.pc] ∧ OnlyChanges [.rs, .diags] s t) ∧
  (∀ s : State, s.pc.toNat % 2 = 0 → s.pc.toNat ≤ 4094 → s.byteAt .rom s.pc.toNat = 0 →
    s.byteAt .rom (s.pc.toNat + 1) = 0 →
    ∃ t, execute s = .next t ∧ t.rs = .stopped ∧ t.diags = s.diags ++ [.halt s.pc] ∧
      OnlyChanges [.rs, .diags] s t ∧
      (∃ u, execute t = .next u ∧ u.rs = .stopped ∧ u.diags = t.diags ++ [.halt s.pc] ∧
        OnlyChanges [.diags] t u) ∧
      ∃ v, serve .start t = .next v ∧ v.pc = 0)

/-- R130: the encoding of STORE, its effect and its frame for every register, and its one fault. -/
def Obligations.StoreLoadsTheImmediate : Prop :=
  ∀ (rX : Nibble) (imm8 : Byte) (s : State),
    (rX ≠ 0 ∨ imm8 ≠ 0 →
      decodeWord (BitVec.ofNat 16 (0x0000 + rX.toNat * 0x100 + imm8.toNat))
        = .ok (.store rX imm8)) ∧
    decodeWord 0x0000 = .ok .halt ∧
    (∀ i : Fin 8, rX.toNat = i.val →
      ∃ t, exec (.store rX imm8) s = .next t ∧ t.reg i = imm8 ∧ t.pc = s.pc + 2 ∧
        OnlyChanges [.reg i, .pc] s t) ∧
    (8 ≤ rX.toNat → TakesFault (.store rX imm8) s (.registerIndexOutOfRange .rX rX))

/-- The encoding of ADD, the sum modulo 256 in the destination, whichever registers coincide, its frame,
and the fault of the first field above 7 (41_register_arith.md section 3). That rX is
checked before rY and rY before rZ is the spec's D7 (log 7). -/
def Obligations.AddWritesTheSumModulo256 : Prop :=
  ∀ (rX rY rZ : Nibble) (s : State),
    decodeWord (BitVec.ofNat 16 (0x1000 + rX.toNat * 0x100 + rY.toNat * 0x10 + rZ.toNat))
      = .ok (.add rX rY rZ) ∧
    (∀ i j k : Fin 8, rX.toNat = i.val → rY.toNat = j.val → rZ.toNat = k.val →
      ∃ t, exec (.add rX rY rZ) s = .next t ∧
        (t.reg k).toNat = ((s.reg i).toNat + (s.reg j).toNat) % 256 ∧ t.pc = s.pc + 2 ∧
        OnlyChanges [.reg k, .pc] s t) ∧
    (8 ≤ rX.toNat → TakesFault (.add rX rY rZ) s (.registerIndexOutOfRange .rX rX)) ∧
    (rX.toNat < 8 → 8 ≤ rY.toNat →
      TakesFault (.add rX rY rZ) s (.registerIndexOutOfRange .rY rY)) ∧
    (rX.toNat < 8 → rY.toNat < 8 → 8 ≤ rZ.toNat →
      TakesFault (.add rX rY rZ) s (.registerIndexOutOfRange .rZ rZ))

/-- The encoding of SUB, the difference modulo 256 in the destination, its frame,
and the fault of the first field above 7 (41_register_arith.md section 4). That rX is
checked before rY and rY before rZ is the spec's D7 (log 7). -/
def Obligations.SubWritesTheDifferenceModulo256 : Prop :=
  ∀ (rX rY rZ : Nibble) (s : State),
    decodeWord (BitVec.ofNat 16 (0x2000 + rX.toNat * 0x100 + rY.toNat * 0x10 + rZ.toNat))
      = .ok (.sub rX rY rZ) ∧
    (∀ i j k : Fin 8, rX.toNat = i.val → rY.toNat = j.val → rZ.toNat = k.val →
      ∃ t, exec (.sub rX rY rZ) s = .next t ∧
        (t.reg k).toNat = ((s.reg i).toNat + 256 - (s.reg j).toNat) % 256 ∧ t.pc = s.pc + 2 ∧
        OnlyChanges [.reg k, .pc] s t) ∧
    (8 ≤ rX.toNat → TakesFault (.sub rX rY rZ) s (.registerIndexOutOfRange .rX rX)) ∧
    (rX.toNat < 8 → 8 ≤ rY.toNat →
      TakesFault (.sub rX rY rZ) s (.registerIndexOutOfRange .rY rY)) ∧
    (rX.toNat < 8 → rY.toNat < 8 → 8 ≤ rZ.toNat →
      TakesFault (.sub rX rY rZ) s (.registerIndexOutOfRange .rZ rZ))

/-- TO_ASCII (41_register_arith.md section 5): the ASCII code of the hexadecimal digit, and its faults.
The codes 0x30 and 0x41 are the spec's from general knowledge (G2; log 24), the place of the fields and
the ignored low nibble its D1 and D2 (log 17), the order of the checks its D7 (log 7). -/
def Obligations.ToAsciiWritesTheDigitsCode : Prop :=
  ∀ (rX rY low : Nibble) (s : State),
    decodeWord (BitVec.ofNat 16 (0xE000 + rX.toNat * 0x100 + rY.toNat * 0x10 + low.toNat))
      = .ok (.toAscii rX rY) ∧
    (∀ i j : Fin 8, rX.toNat = i.val → rY.toNat = j.val → (s.reg i).toNat ≤ 15 →
      ∃ t, exec (.toAscii rX rY) s = .next t ∧
        (t.reg j).toNat = (if (s.reg i).toNat ≤ 9 then 0x30 + (s.reg i).toNat
          else 0x41 + ((s.reg i).toNat - 10)) ∧
        t.pc = s.pc + 2 ∧ OnlyChanges [.reg j, .pc] s t) ∧
    (∀ i j : Fin 8, rX.toNat = i.val → rY.toNat = j.val → 15 < (s.reg i).toNat →
      TakesFault (.toAscii rX rY) s (.invalidDigit (s.reg i))) ∧
    (8 ≤ rX.toNat → TakesFault (.toAscii rX rY) s (.registerIndexOutOfRange .rX rX)) ∧
    (rX.toNat < 8 → 8 ≤ rY.toNat →
      TakesFault (.toAscii rX rY) s (.registerIndexOutOfRange .rY rY))

/-- R150: the encoding of SET_ADDRESS, its effect for every 12-bit value, and its frame. -/
def Obligations.SetAddressLoadsTheAddressRegister : Prop :=
  ∀ (addr12 : Addr) (s : State),
    decodeWord (BitVec.ofNat 16 (0xA000 + addr12.toNat)) = .ok (.setAddress addr12) ∧
    ∃ t, exec (.setAddress addr12) s = .next t ∧ t.a = addr12 ∧ t.pc = s.pc + 2 ∧
      OnlyChanges [.a, .pc] s t

/-- R151: every word of opcode 7 is SWITCH_MEMORY; it toggles M, changes nothing else but pc, and two in
a row restore M. -/
def Obligations.SwitchMemoryTogglesTheBank : Prop :=
  (∀ low : Addr, decodeWord (BitVec.ofNat 16 (0x7000 + low.toNat)) = .ok .switchMemory) ∧
  ∀ s : State, ∃ t, exec .switchMemory s = .next t ∧
    t.m = (match s.m with | .ram => .rom | .rom => .ram) ∧ t.pc = s.pc + 2 ∧
    OnlyChanges [.m, .pc] s t ∧
    ∃ t', exec .switchMemory t = .next t' ∧ t'.m = s.m

/-- READ (42_memory_access.md section 4): the byte at A of the bank M selects goes to the register. The
place of the field and the ignored low byte are the spec's D1 and D2 (log 17). -/
def Obligations.ReadLoadsFromTheSelectedBank : Prop :=
  ∀ (rX : Nibble) (low : Byte) (s : State),
    decodeWord (BitVec.ofNat 16 (0x3000 + rX.toNat * 0x100 + low.toNat)) = .ok (.read rX) ∧
    (∀ i : Fin 8, rX.toNat = i.val →
      ∃ t, exec (.read rX) s = .next t ∧ t.reg i = s.byteAt s.m s.a.toNat ∧ t.pc = s.pc + 2 ∧
        OnlyChanges [.reg i, .pc] s t) ∧
    (8 ≤ rX.toNat → TakesFault (.read rX) s (.registerIndexOutOfRange .rX rX))

/-- WRITE (42_memory_access.md section 5): the register goes to the byte at A of the bank M selects, with a
RomWrite warning when that is ROM, and to no other byte of either bank. The place of the field and the
ignored low byte are the spec's D1 and D2 (log 17). -/
def Obligations.WriteStoresToTheSelectedBank : Prop :=
  ∀ (rX : Nibble) (low : Byte) (s : State),
    decodeWord (BitVec.ofNat 16 (0x4000 + rX.toNat * 0x100 + low.toNat)) = .ok (.write rX) ∧
    s.dataAddress = s.a.toNat ∧
    (∀ i : Fin 8, rX.toNat = i.val →
      ∃ t, exec (.write rX) s = .next t ∧ t.byteAt s.m s.dataAddress = s.reg i ∧
        t.diags = s.diags ++ (if s.m = .rom then [.romWrite s.dataAddress (s.reg i)] else []) ∧
        t.pc = s.pc + 2 ∧ OnlyChanges [.cell s.m s.dataAddress, .diags, .pc] s t) ∧
    (8 ≤ rX.toNat → TakesFault (.write rX) s (.registerIndexOutOfRange .rX rX))

/-- BCD (42_memory_access.md section 6): the three decimal digits go to A, A+1, A+2 of the bank M selects
and to no other byte, one RomWrite each when that is ROM; with A above 4093 it faults and writes none.
The fault and the absence of partial writes are the spec's D5 and D6 (log 6), the field's place and the
ignored low byte its D1 and D2 (log 17), the order of the checks its D7 (log 7), the count of
diagnostics its D20 (log 14). -/
def Obligations.BcdStoresTheDecimalDigits : Prop :=
  ∀ (rX : Nibble) (low : Byte) (s : State),
    decodeWord (BitVec.ofNat 16 (0xD000 + rX.toNat * 0x100 + low.toNat)) = .ok (.bcd rX) ∧
    s.dataAddress = s.a.toNat ∧
    (∀ i : Fin 8, rX.toNat = i.val → s.a.toNat ≤ 4093 →
      ∃ (t : State) (h d o : Byte), exec (.bcd rX) s = .next t ∧
        h.toNat = (s.reg i).toNat / 100 ∧ d.toNat = (s.reg i).toNat / 10 % 10 ∧
        o.toNat = (s.reg i).toNat % 10 ∧
        h.toNat * 100 + d.toNat * 10 + o.toNat = (s.reg i).toNat ∧
        t.byteAt s.m s.dataAddress = h ∧ t.byteAt s.m (s.dataAddress + 1) = d ∧
        t.byteAt s.m (s.dataAddress + 2) = o ∧
        t.diags = s.diags ++ (if s.m = .rom then
          [.romWrite s.dataAddress h, .romWrite (s.dataAddress + 1) d,
            .romWrite (s.dataAddress + 2) o] else []) ∧
        t.pc = s.pc + 2 ∧
        OnlyChanges [.cell s.m s.dataAddress, .cell s.m (s.dataAddress + 1),
          .cell s.m (s.dataAddress + 2), .diags, .pc] s t) ∧
    (rX.toNat < 8 → 4094 ≤ s.a.toNat →
      TakesFault (.bcd rX) s (.outOfBoundsData s.m 4096)) ∧
    (8 ≤ rX.toNat → TakesFault (.bcd rX) s (.registerIndexOutOfRange .rX rX))

/-- R170: the encoding of JUMP; an even target goes to pc and nothing else changes; an odd target faults
and pc is kept. -/
def Obligations.JumpSetsPcToAnEvenTarget : Prop :=
  ∀ (addr12 : Addr) (s : State),
    decodeWord (BitVec.ofNat 16 (0x5000 + addr12.toNat)) = .ok (.jump addr12) ∧
    (addr12.toNat % 2 = 0 →
      ∃ t, exec (.jump addr12) s = .next t ∧ t.pc.toNat = addr12.toNat ∧
        OnlyChanges [.pc] s t) ∧
    (addr12.toNat % 2 = 1 → TakesFault (.jump addr12) s (.oddJumpTarget addr12))

/-- SKIP_EQ (43_control_transfer.md section 3): pc gains 4 when the registers are equal and 2 when they
differ, and nothing else changes. The places of the fields and the ignored low nibble are the spec's D1
and D2 (log 17), the order of the checks its D7 (log 7), the sums that are not truncated its D4 (log 5). -/
def Obligations.SkipEqSkipsWhenEqual : Prop :=
  ∀ (rX rY low : Nibble) (s : State),
    decodeWord (BitVec.ofNat 16 (0x8000 + rX.toNat * 0x100 + rY.toNat * 0x10 + low.toNat))
      = .ok (.skipEq rX rY) ∧
    (∀ i j : Fin 8, rX.toNat = i.val → rY.toNat = j.val →
      ∃ t, exec (.skipEq rX rY) s = .next t ∧
        t.pc = (if s.reg i = s.reg j then s.pc + 4 else s.pc + 2) ∧ OnlyChanges [.pc] s t) ∧
    (8 ≤ rX.toNat → TakesFault (.skipEq rX rY) s (.registerIndexOutOfRange .rX rX)) ∧
    (rX.toNat < 8 → 8 ≤ rY.toNat →
      TakesFault (.skipEq rX rY) s (.registerIndexOutOfRange .rY rY))

/-- SKIP_NEQ (43_control_transfer.md section 4): pc gains 4 when the registers differ and 2 when they are
equal, and nothing else changes. The places of the fields and the ignored low nibble are the spec's D1
and D2 (log 17), the order of the checks its D7 (log 7), the sums that are not truncated its D4 (log 5). -/
def Obligations.SkipNeqSkipsWhenDifferent : Prop :=
  ∀ (rX rY low : Nibble) (s : State),
    decodeWord (BitVec.ofNat 16 (0x9000 + rX.toNat * 0x100 + rY.toNat * 0x10 + low.toNat))
      = .ok (.skipNeq rX rY) ∧
    (∀ i j : Fin 8, rX.toNat = i.val → rY.toNat = j.val →
      ∃ t, exec (.skipNeq rX rY) s = .next t ∧
        t.pc = (if s.reg i ≠ s.reg j then s.pc + 4 else s.pc + 2) ∧ OnlyChanges [.pc] s t) ∧
    (8 ≤ rX.toNat → TakesFault (.skipNeq rX rY) s (.registerIndexOutOfRange .rX rX)) ∧
    (rX.toNat < 8 → 8 ≤ rY.toNat →
      TakesFault (.skipNeq rX rY) s (.registerIndexOutOfRange .rY rY))

/-- The encoding of SET_TIMER with its low nibble ignored, its effect for every value, its frame, and what
the ticks that come after it leave: `val8` less their number, held at 0 (44_timer_io.md section 2). That
the low nibble is ignored is the spec's D2 (log 17). -/
def Obligations.SetTimerLoadsTheCounter : Prop :=
  ∀ (val8 : Byte) (low : Nibble) (s : State),
    decodeWord (BitVec.ofNat 16 (0xB000 + val8.toNat * 0x10 + low.toNat)) = .ok (.setTimer val8) ∧
    ∃ t, exec (.setTimer val8) s = .next t ∧ t.t = val8 ∧ t.pc = s.pc + 2 ∧
      OnlyChanges [.t, .pc] s t ∧
      ∀ n : Nat, (State.tick^[n] t).t.toNat = val8.toNat - n

/-- READ_TIMER (44_timer_io.md section 3): the live counter goes to the register and is not changed. The
place of the field and the ignored low byte are the spec's D1 and D2 (log 17). -/
def Obligations.ReadTimerCopiesTheLiveCounter : Prop :=
  ∀ (rX : Nibble) (low : Byte) (s : State),
    decodeWord (BitVec.ofNat 16 (0xC000 + rX.toNat * 0x100 + low.toNat)) = .ok (.readTimer rX) ∧
    (∀ i : Fin 8, rX.toNat = i.val →
      ∃ t, exec (.readTimer rX) s = .next t ∧ t.reg i = s.t ∧ t.pc = s.pc + 2 ∧
        OnlyChanges [.reg i, .pc] s t) ∧
    (8 ≤ rX.toNat → TakesFault (.readTimer rX) s (.registerIndexOutOfRange .rX rX))

/-- READ_KEYBOARD (44_timer_io.md section 4): the provider's next answer, whatever byte it is, goes to the
register and is consumed; a bad register field faults and consumes none. The free byte is the spec's D11
(log 10), the place of the field and the ignored low byte its D1 and D2 (log 17). -/
def Obligations.ReadKeyboardConsumesOneAnswer : Prop :=
  ∀ (rX : Nibble) (low : Byte) (s : State),
    decodeWord (BitVec.ofNat 16 (0x6000 + rX.toNat * 0x100 + low.toNat))
      = .ok (.readKeyboard rX) ∧
    (∀ i : Fin 8, rX.toNat = i.val →
      ∃ t, exec (.readKeyboard rX) s = .next t ∧ t.reg i = Config.keyInput s.keyReads ∧
        t.keyReads = s.keyReads + 1 ∧ t.pc = s.pc + 2 ∧
        OnlyChanges [.reg i, .keyReads, .pc] s t) ∧
    (8 ≤ rX.toNat → TakesFault (.readKeyboard rX) s (.registerIndexOutOfRange .rX rX))

/-- DRAW (44_timer_io.md section 5): the character goes to the cell and the sink gets the set and then the
render; a code above 0x7F, or a row or column above 7, faults and the sink is not called. Reading row
and column as immediates is the spec's D17 (log 22), the places of the fields its D1 (log 17), the order
of the checks its D7 (log 7). -/
def Obligations.DrawSetsOneCellAndRenders : Prop :=
  ∀ (rX row col : Nibble) (s : State),
    decodeWord (BitVec.ofNat 16 (0xF000 + rX.toNat * 0x100 + row.toNat * 0x10 + col.toNat))
      = .ok (.draw rX row col) ∧
    (∀ i r k : Fin 8, rX.toNat = i.val → row.toNat = r.val → col.toNat = k.val →
      (s.reg i).toNat ≤ 0x7F →
      ∃ t, exec (.draw rX row col) s = .next t ∧ (t.screen.get r).get k = s.reg i ∧
        t.displayCalls = s.displayCalls ++ [.set k r (s.reg i), .render] ∧ t.pc = s.pc + 2 ∧
        OnlyChanges [.screen r k, .displayCalls, .pc] s t) ∧
    (∀ i : Fin 8, rX.toNat = i.val →
      0x7F < (s.reg i).toNat ∨ 8 ≤ row.toNat ∨ 8 ≤ col.toNat →
      TakesFault (.draw rX row col) s (.invalidDrawParameters (s.reg i) row col)) ∧
    (8 ≤ rX.toNat → TakesFault (.draw rX row col) s (.registerIndexOutOfRange .rX rX))

/-! ### Faults, over all instructions -/

/-- An instruction faults with RegisterIndexOutOfRange exactly when some register field it uses holds
8..15, whatever else is wrong; the record names the first such field and its value, and nothing changes
but RS (60_exceptions.md section 1). That these checks come before all others, in field order, is the
spec's D7 (log 7). -/
def Obligations.BadRegisterFieldFaultsFirst : Prop :=
  ∀ (i : Instr) (s : State) (f : RegField) (n : Nibble),
    TakesFault i s (.registerIndexOutOfRange f n) ↔
      (registerFields i).find? (fun p => 8 ≤ p.2.toNat) = some (f, n)

/-- An instruction faults with InvalidDigit exactly when it is TO_ASCII, with legal fields, of a register
above 15; the record is the value, and nothing changes but RS (60_exceptions.md section 1). That both
fields are checked before the digit is the spec's D7 (log 7). -/
def Obligations.OnlyToAsciiFaultsInvalidDigit : Prop :=
  ∀ (i : Instr) (s : State) (v : Byte),
    TakesFault i s (.invalidDigit v) ↔
      ∃ p q : Fin 8, i = .toAscii (regNo p) (regNo q) ∧ s.reg p = v ∧ 0x0F < v.toNat

/-- An instruction faults with InvalidDrawParameters exactly when it is DRAW, with a legal register field,
of a code above 0x7F or at a row or column above 7; the record is the three values, and nothing changes
but RS (60_exceptions.md section 1). That the register field is checked first is the spec's D7 (log 7). -/
def Obligations.OnlyDrawFaultsInvalidDrawParameters : Prop :=
  ∀ (i : Instr) (s : State) (c : Byte) (row col : Nibble),
    TakesFault i s (.invalidDrawParameters c row col) ↔
      ∃ p : Fin 8, i = .draw (regNo p) row col ∧ s.reg p = c ∧
        (0x7F < c.toNat ∨ 7 < row.toNat ∨ 7 < col.toNat)

/-- R218: an instruction faults with OddJumpTarget exactly when it is a JUMP with that odd operand, and
nothing changes but RS. -/
def Obligations.OnlyJumpFaultsOddTarget : Prop :=
  ∀ (i : Instr) (s : State) (target : Addr),
    TakesFault i s (.oddJumpTarget target) ↔ i = .jump target ∧ target.toNat % 2 = 1

/-- R213 (the spec's D5; log 6): an instruction faults with OutOfBounds at a data access exactly when it is
BCD, with a legal field, and A is 4094 or 4095; the record is the bank M and the address 4096, the first
that leaves the bank in both cases. That the register field is checked first is the spec's D7 (log 7). -/
def Obligations.OnlyBcdFaultsOutOfBounds : Prop :=
  ∀ (i : Instr) (s : State) (b : Bank) (addr : Nat),
    TakesFault i s (.outOfBoundsData b addr) ↔
      (∃ p : Fin 8, i = .bcd (regNo p)) ∧ b = s.m ∧ 4094 ≤ s.a.toNat ∧ addr = 4096

/-- R108 (the spec's D6; log 6): whatever instruction's step ends with a Fault diagnostic has changed nothing
but RS, now Stopped, and that diagnostic. -/
def Obligations.FaultsLeaveNoPartialState : Prop :=
  ∀ (i : Instr) (s t : State) (c : Cause), exec i s = .next t →
    .fault c ∈ t.diags.drop s.diags.length → FaultedWith c s t

/-- Every instruction answers a next state, in every state: no meaning of this model refuses and none ends
in a fault of the model, since R108 gives every fault of the machine its effect (log 4). For READ_KEYBOARD
this rests on the model's choice that the step is one whole move and the provider always answers
(log 11): the spec lets that step wait without bound (44_timer_io.md section 4). -/
def Obligations.EveryInstructionAnswersANextState : Prop :=
  ∀ (i : Instr) (s : State), ∃ t, exec i s = .next t

/-! ### Frames, over all instructions -/

/-- How each instruction leaves pc, at every address an instruction can stand at; and none reads pc into a
register or memory: with any other pc the registers and both banks end the same (10_state.md section 2).
That the sums are not truncated to 12 bits is the spec's D4 (log 5). -/
def Obligations.PcAfterEveryInstruction : Prop :=
  ∀ (i : Instr) (s t : State), s.pc.toNat ≤ 4094 → exec i s = .next t →
    (∀ p : Pc, ∃ u, exec i (s.setPc p) = .next u ∧ (∀ j, u.reg j = t.reg j) ∧
      ∀ b addr, u.byteAt b addr = t.byteAt b addr) ∧
    ((∃ c, .fault c ∈ t.diags.drop s.diags.length) → t.pc = s.pc) ∧
    (∀ a, i = .jump a → a.toNat % 2 = 1 → t.pc = s.pc) ∧
    ((∀ c, .fault c ∉ t.diags.drop s.diags.length) →
      match i with
      | .halt => t.pc = s.pc
      | .jump addr12 => t.pc.toNat = addr12.toNat
      | .skipEq rX rY => ∃ p q : Fin 8, rX = regNo p ∧ rY = regNo q ∧
          t.pc.toNat = s.pc.toNat + (if s.reg p = s.reg q then 4 else 2)
      | .skipNeq rX rY => ∃ p q : Fin 8, rX = regNo p ∧ rY = regNo q ∧
          t.pc.toNat = s.pc.toNat + (if s.reg p ≠ s.reg q then 4 else 2)
      | _ => t.pc.toNat = s.pc.toNat + 2)

/-- A register changes only where it is the destination the table of 10_state.md section 1 gives the
instruction, and a register that no field of the instruction names has no influence on what it does
(R12, derived there). -/
def Obligations.RegistersNotNamedAreNotTouched : Prop :=
  (∀ (i : Instr) (s t : State) (j : Fin 8), exec i s = .next t →
    destinationField i ≠ some (regNo j) → t.reg j = s.reg j) ∧
  (∀ (i : Instr) (s t : State) (j : Fin 8) (v : Byte), exec i s = .next t →
    (∀ f, (f, regNo j) ∉ registerFields i) → exec i (s.setReg j v) = .next (t.setReg j v))

/-- A is written only by SET_ADDRESS, M only by SWITCH_MEMORY, T only by SET_TIMER, the screen only by
DRAW; only READ_KEYBOARD consumes a keyboard answer; and no instruction sets RS to Running (table of
10_state.md section 8, R25 derived there; R16, R18). -/
def Obligations.SpecialStateHasOneWriter : Prop :=
  ∀ (i : Instr) (s t : State), exec i s = .next t →
    (t.a ≠ s.a → i = .setAddress t.a) ∧
    (t.m ≠ s.m → i = .switchMemory) ∧
    (t.t ≠ s.t → i = .setTimer t.t) ∧
    (t.screen ≠ s.screen → ∃ rX row col, i = .draw rX row col) ∧
    (t.displayCalls ≠ s.displayCalls → ∃ rX row col, i = .draw rX row col) ∧
    (t.keyReads ≠ s.keyReads → ∃ rX, i = .readKeyboard rX) ∧
    (t.rs ≠ s.rs → t.rs = .stopped) ∧
    t.tickDraws = s.tickDraws ∧ t.agenda = s.agenda ∧ t.hostStepped = s.hostStepped ∧
    t.replies = s.replies

/-- A byte of memory changes only in the bank M selects, and only at A by WRITE or at A, A+1, A+2 by BCD
(42_memory_access.md section 1; 20_memory.md section 2). -/
def Obligations.MemoryChangesOnlyThroughA : Prop :=
  ∀ (i : Instr) (s t : State) (b : Bank) (addr : Nat), exec i s = .next t →
    t.byteAt b addr ≠ s.byteAt b addr →
    b = s.m ∧ ((∃ rX, i = .write rX ∧ addr = s.dataAddress) ∨
      (∃ rX, i = .bcd rX ∧ s.dataAddress ≤ addr ∧ addr ≤ s.dataAddress + 2))

/-- A RomWrite warning is emitted by WRITE or BCD alone, with ROM selected; it records the address and the
byte the instruction put there, and the run goes on. No byte of ROM changes without its warning, and a
WRITE or a BCD into ROM emits one for every byte it writes, even a byte that stays as it was
(60_exceptions.md section 1). That it is exactly one for each byte is the spec's D20 (log 14). -/
def Obligations.RomWritesAreWarnedOf : Prop :=
  ∀ (i : Instr) (s t : State), exec i s = .next t →
    (∀ addr v, .romWrite addr v ∈ t.diags.drop s.diags.length →
      s.m = .rom ∧ (∃ rX, i = .write rX ∨ i = .bcd rX) ∧ t.byteAt .rom addr = v ∧ t.rs = s.rs) ∧
    (∀ addr, t.byteAt .rom addr ≠ s.byteAt .rom addr →
      .romWrite addr (t.byteAt .rom addr) ∈ t.diags.drop s.diags.length) ∧
    (∀ p : Fin 8, i = .write (regNo p) → s.m = .rom →
      t.diags = s.diags ++ [.romWrite s.dataAddress (s.reg p)]) ∧
    (∀ p : Fin 8, i = .bcd (regNo p) → s.m = .rom → s.a.toNat ≤ 4093 →
      t.diags = s.diags ++ [.romWrite s.dataAddress (t.byteAt .rom s.dataAddress),
        .romWrite (s.dataAddress + 1) (t.byteAt .rom (s.dataAddress + 1)),
        .romWrite (s.dataAddress + 2) (t.byteAt .rom (s.dataAddress + 2))])

/-- The timer counter has no influence on any instruction but READ_TIMER, and only SET_TIMER writes it: for
every other instruction, changing T before the step and changing it after the step come to the same
(40_execution_cycle.md R109, derived there; 44_timer_io.md). -/
def Obligations.TimerIsInvisibleToOtherInstructions : Prop :=
  ∀ (i : Instr) (s t : State) (v : Byte), (∀ rX, i ≠ .readTimer rX) → (∀ u, i ≠ .setTimer u) →
    exec i s = .next t → exec i (s.setTimer v) = .next (t.setTimer v)

/-! ### The memory component -/

/-- R41: a read inside a bank gives the byte there, and outside fails with OutOfBounds. -/
def Obligations.BankReadIsBoundsChecked : Prop :=
  ∀ (b : Bank) (addr : Nat) (s : State),
    (addr ≤ 4095 → bankRead b addr s = .ok (s.byteAt b addr)) ∧
    (4095 < addr → bankRead b addr s = .error (.outOfBoundsData b addr))

/-- R42: a write inside a bank sets that byte and no other, and emits RomWrite when the bank is ROM;
outside it fails with OutOfBounds. -/
def Obligations.BankWriteSetsOneByte : Prop :=
  ∀ (b : Bank) (addr : Nat) (v : Byte) (s : State),
    (addr ≤ 4095 → ∃ t, bankWrite b addr v s = .ok t ∧ t.byteAt b addr = v ∧
      t.diags = s.diags ++ (if b = .rom then [.romWrite addr v] else []) ∧
      OnlyChanges [.cell b addr, .diags] s t) ∧
    (4095 < addr → bankWrite b addr v s = .error (.outOfBoundsData b addr))

/-- Two banks in canonical form that read the same at every address are the same list (the model's
representation of a bank, log 18). -/
def Obligations.CanonicalBanksAreEqualWhenTheyReadEqual : Prop :=
  ∀ mem mem' : Memory, mem.wf → mem'.wf → (∀ addr, mem.read addr = mem'.read addr) → mem = mem'

/-- LoadROM of a Stopped machine (20_memory.md section 5; the 4096-byte case and ROM unchanged on failure
are the spec's D23, log 23): an image of at most 4096 bytes becomes the ROM bank from 0, zero above it,
and nothing else changes but the answer to the host; a larger one leaves ROM as it was. That the bank is
in canonical form and that the answers are kept in a list are the model's (logs 18 and 16). -/
def Obligations.LoadRomReplacesTheBank : Prop :=
  ∀ (s : State) (image : List Byte), s.rs = .stopped →
    (image.length ≤ 4096 → ∃ t, serve (.loadRom image) s = .next t ∧
      (∀ addr, addr < 4096 → t.byteAt .rom addr = image.getD addr 0) ∧ t.rom.wf ∧
      (∀ addr, t.byteAt .ram addr = s.byteAt .ram addr) ∧
      t.replies = s.replies ++ [.done] ∧
      (∀ p : Part, p ≠ .replies → (∀ addr, p ≠ .cell .rom addr) → p.Same s t)) ∧
    (4096 < image.length → ∃ t, serve (.loadRom image) s = .next t ∧
      t.replies = s.replies ++ [.imageTooLarge image.length] ∧ OnlyChanges [.replies] s t)

/-! ### The timer -/

/-- R229: a tick takes 1 from a counter above 0, leaves 0 at 0, and changes nothing else. The host's direct
`tick()` is that tick, in either run state (60_exceptions.md section 5, 70_reset_and_hazards.md
section 1). -/
def Obligations.TickDecrementsAndHoldsAtZero : Prop :=
  ∀ s : State, (0 < s.t.toNat → s.tick.t.toNat = s.t.toNat - 1) ∧ (s.t = 0 → s.tick.t = 0) ∧
    OnlyChanges [.t] s s.tick ∧ serve .tick s = .next s.tick

/-- Time before a move is a number of single ticks while Running, and no tick while Stopped; and ticks keep
coming: after any point of the sequence of moves there is one with a tick before it, so that enough moves
with no SET_TIMER bring any counter to 0 (60_exceptions.md R232, the spec's D10; log 8). -/
def Obligations.FreeTicksKeepComing : Prop :=
  (∀ s : State, s.rs = .running →
    ∃ n, s.elapse = (State.tick^[n] s).countTickDraw ∧ n = ticksBefore s.tickDraws) ∧
  (∀ s : State, s.rs = .stopped → s.elapse = s) ∧
  (∀ k : Nat, ∃ n, k ≤ n ∧ 0 < ticksBefore n) ∧
  (∀ s : State, s.rs = .running → ∃ n, (State.elapse^[n] s).t = 0)

/-- A tick and a SET_TIMER in either serial order: `val8` when the tick came first, one less, held at 0,
when the set came first (60_exceptions.md R231). -/
def Obligations.TickAndSetTimerSerialise : Prop :=
  ∀ (val8 : Byte) (s : State),
    (∃ t, exec (.setTimer val8) s.tick = .next t ∧ t.t = val8) ∧
    (∃ t, exec (.setTimer val8) s = .next t ∧ t.tick.t.toNat = val8.toNat - 1)

/-! ### Run control and the host -/

/-- `start()` sets pc to 0 and RS to Running, in either run state, and changes nothing else
(40_execution_cycle.md section 2). That it keeps all other state is the spec's D21 (log 23). -/
def Obligations.StartResetsPcAndRuns : Prop :=
  ∀ s : State, ∃ t, serve .start s = .next t ∧ t.pc = 0 ∧ t.rs = .running ∧
    OnlyChanges [.pc, .rs] s t

/-- R103: `stop()` sets RS to Stopped, changes nothing else, and does nothing at all to a machine that is
already Stopped. -/
def Obligations.StopOnlyStops : Prop :=
  ∀ s : State, ∃ t, serve .stop s = .next t ∧ t.rs = .stopped ∧ OnlyChanges [.rs] s t ∧
    (s.rs = .stopped → t = s)

/-- The run-state machine, over every move of the machine: `start()` and `stop()` from either state; a step,
scheduled or direct, stops a Running machine exactly when it ended in HALT or a fault, and leaves a
Stopped one Stopped; nothing else changes RS (40_execution_cycle.md section 2). That a direct `execute()`
steps a Stopped machine is the spec's D18 (log 28). -/
def Obligations.RunStateChangesOnlyAsGiven : Prop :=
  ∀ s t : State, step s = .next t →
    ((nextMove s).1 = .host .start → t.rs = .running ∧ t.pc = 0) ∧
    ((nextMove s).1 = .host .stop →
      t.rs = .stopped ∧ (s.rs = .stopped → t = s.setAgenda (nextMove s).2)) ∧
    ((nextMove s).1 = .clock ∨ (nextMove s).1 = .host .execute →
      (s.rs = .stopped → t.rs = .stopped) ∧
      (s.rs = .running → (t.rs = .stopped ↔
        (∃ p, t.diags = s.diags ++ [.halt p]) ∨ (∃ c, t.diags = s.diags ++ [.fault c])))) ∧
    ((nextMove s).1 ≠ .host .start → (nextMove s).1 ≠ .host .stop → (nextMove s).1 ≠ .clock →
      (nextMove s).1 ≠ .host .execute → t.rs = s.rs)

/-- A Stopped machine that the host leaves alone stays exactly as it is: no step, no tick (60_exceptions.md
R237, derived there; 10_state.md R20; that the model's step then answers the same state is log 20). -/
def Obligations.StoppedMachineRests : Prop :=
  ∀ s : State, s.rs = .stopped → s.agenda = [] → step s = .next s

/-- The host's accessors (60_exceptions.md section 7; the widths are the spec's D19). In either run state: a get
answers the value, a register access with a bad index is answered so and changes nothing, and a set of
the timer writes T alone. Stopped, or between direct steps (70_reset_and_hazards.md section 1; log 29): a
set of x, pc, A or M writes that one alone, pc odd or even. That a get, or an access with a bad index, is
answered on a Running machine that is not between direct steps is the model's choice (log 13). That the
timer get answers the live T is the spec's D13 (log 19). The list of answers, which sets answer done, and
the reads of RS, ROM, RAM and the screen as accessors are the model's (log 16). -/
def Obligations.AccessorsReachOneRegister : Prop :=
  ∀ s : State,
    (∀ op r, (op, r) ∈ [(HostOp.getPc, HostReply.pc s.pc), (.getAddr, .addr s.a),
        (.getBank, .bank s.m), (.getTimer, .timer s.t), (.getRunState, .runState s.rs)] →
      ∃ t, serve op s = .next t ∧ t.replies = s.replies ++ [r] ∧ OnlyChanges [.replies] s t) ∧
    (∀ i : Fin 8, ∃ t, serve (.getReg i.val) s = .next t ∧
      t.replies = s.replies ++ [.reg (s.reg i)] ∧ OnlyChanges [.replies] s t) ∧
    (∀ (b : Bank) (addr : Nat), ∃ t, serve (.getByte b addr) s = .next t ∧
      t.replies = s.replies ++ [if addr ≤ 4095 then .byte (s.byteAt b addr) else .outOfBounds b addr] ∧
      OnlyChanges [.replies] s t) ∧
    (∀ row col : Fin 8, ∃ t, serve (.getCell row col) s = .next t ∧
      t.replies = s.replies ++ [.cell ((s.screen.get row).get col)] ∧ OnlyChanges [.replies] s t) ∧
    (∀ (n : Nat) (v : Byte), 8 ≤ n → ∀ op, op = .getReg n ∨ op = .setReg n v →
      ∃ t, serve op s = .next t ∧ t.replies = s.replies ++ [.indexOutOfRange n] ∧
        OnlyChanges [.replies] s t) ∧
    (∀ v : Byte, ∃ t, serve (.setTimer v) s = .next t ∧ t.t = v ∧ OnlyChanges [.t] s t) ∧
    (s.rs = .stopped ∨ (s.hostStepped = true ∧ nextStepDirect s.agenda = true) →
      (∀ (i : Fin 8) (v : Byte), ∃ t, serve (.setReg i.val v) s = .next t ∧ t.reg i = v ∧
        t.replies = s.replies ++ [.done] ∧ OnlyChanges [.reg i, .replies] s t) ∧
      (∀ v : Addr, ∃ t, serve (.setPc v) s = .next t ∧ t.pc.toNat = v.toNat ∧
        OnlyChanges [.pc] s t) ∧
      (∀ v : Addr, ∃ t, serve (.setAddr v) s = .next t ∧ t.a = v ∧ OnlyChanges [.a] s t) ∧
      (∀ b : Bank, ∃ t, serve (.setBank b) s = .next t ∧ t.m = b ∧ OnlyChanges [.m] s t))

/-- The one way a step ends without a next state is a host that breaks a duty of R253 on a Running machine: a
load, or a set of x, pc, A or M that does not stand between direct steps, each refused by its own name
(R53, U10, U11; the spec's D15 and D19, log 13; what stands between direct steps is log 29). -/
def Obligations.StepRefusesOnlyBrokenHostDuties : Prop :=
  ∀ s : State,
    ((∃ t, step s = .next t) ↔
      ¬ (s.rs = .running ∧ ∃ op rest, s.agenda = .host op :: rest ∧
        breaksDuty (s.hostStepped && nextStepDirect rest) op = true)) ∧
    (∀ op rest, s.rs = .running → s.agenda = .host op :: rest →
      breaksDuty (s.hostStepped && nextStepDirect rest) op = true →
      step s = .refused (match op with
        | .loadRom _ => .loadWhileRunning
        | _ => .setWhileRunning))

/-- The host's operation at the head of the agenda is what the next step serves, after the ticks that fall
while Running, in either run state; and `hostStepped` tells, after every move, whether the last step made
was a direct `execute()` (40_execution_cycle.md sections 1 and 2; the agenda and that field are the
model's, logs 12 and 29). -/
def Obligations.HostOperationsTakeTheirTurn : Prop :=
  (∀ (s : State) (op : HostOp) (rest : List Move), s.agenda = .host op :: rest →
    step s = serve op (s.elapse.setAgenda rest)) ∧
  (∀ s : State, serve .execute s = execute (s.noteStep true)) ∧
  ∀ s t : State, step s = .next t →
    t.agenda = (nextMove s).2 ∧
    t.hostStepped = (match (nextMove s).1, s.rs with
      | .clock, .running => false
      | .host .execute, _ => true
      | _, _ => s.hostStepped)

/-! ### Reset and the invariant -/

/-- The power-on state as 10_state.md section 10 gives it: Stopped at pc 0, RAM selected, all else zero, the
screen blank. The zeros are the spec's D8 (log 1), the bank its D9 and the blank its D14 (log 2). -/
def Obligations.PowerOnStateIsAsGiven : Prop :=
  State.reset.pc = 0 ∧ State.reset.rs = .stopped ∧ State.reset.m = .ram ∧ State.reset.a = 0 ∧
  State.reset.t = 0 ∧ (∀ i, State.reset.reg i = 0) ∧ (∀ b addr, State.reset.byteAt b addr = 0) ∧
  (∀ row col, (State.reset.screen.get row).get col = 0x20)

/-- The power-on state meets the invariant. -/
def Obligations.ResetMeetsTheInvariant : Prop := State.reset.Inv

/-- Every move of every agent keeps the invariant: both banks canonical, pc one of the values R14 names
(the spec's D4, log 5), every display call legal, and the screen showing exactly the calls made (the bank
form and the call list are the model's, logs 15 and 18). -/
def Obligations.EveryStepKeepsTheInvariant : Prop :=
  ∀ s t : State, s.Inv → step s = .next t → t.Inv
end

