-- ==== Sys2Proof/Laws/Decode.lean ====
section
/-! SUPPORT. The fields of a word as quotients and remainders, so that a proof about the decoder or the
encoder is arithmetic; the one way a word decodes; a word is its two bytes. -/

namespace Sys2Proof

@[simp] theorem wordOf_toNat (n : Nat) : (wordOf n).toNat = n % 65536 := by simp [wordOf]

/-! ### The fields -/

@[simp] theorem fieldX_toNat (w : Word) : (fieldX w).toNat = w.toNat / 256 % 16 := by
  simp [fieldX, BitVec.extractLsb'_toNat, Nat.shiftRight_eq_div_pow]

@[simp] theorem fieldY_toNat (w : Word) : (fieldY w).toNat = w.toNat / 16 % 16 := by
  simp [fieldY, BitVec.extractLsb'_toNat, Nat.shiftRight_eq_div_pow]

@[simp] theorem fieldZ_toNat (w : Word) : (fieldZ w).toNat = w.toNat % 16 := by
  simp [fieldZ, BitVec.extractLsb'_toNat]

@[simp] theorem fieldImm8_toNat (w : Word) : (fieldImm8 w).toNat = w.toNat % 256 := by
  simp [fieldImm8, BitVec.extractLsb'_toNat]

@[simp] theorem fieldVal8_toNat (w : Word) : (fieldVal8 w).toNat = w.toNat / 16 % 256 := by
  simp [fieldVal8, BitVec.extractLsb'_toNat, Nat.shiftRight_eq_div_pow]

@[simp] theorem fieldAddr12_toNat (w : Word) : (fieldAddr12 w).toNat = w.toNat % 4096 := by
  simp [fieldAddr12, BitVec.extractLsb'_toNat]

@[simp] theorem highByte_toNat (w : Word) : (highByte w).toNat = w.toNat / 256 := by
  have := w.isLt
  simp only [highByte, BitVec.extractLsb'_toNat, Nat.shiftRight_eq_div_pow]
  omega

@[simp] theorem lowByte_toNat (w : Word) : (lowByte w).toNat = w.toNat % 256 := by
  simp [lowByte, BitVec.extractLsb'_toNat]

/-- The opcode is the quotient by 4096. -/
theorem opcodeOf_eq_div (w : Word) : opcodeOf w = w.toNat / 4096 := by
  have := w.isLt
  simp only [opcodeOf, Nat.shiftRight_eq_div_pow]
  omega

/-- A word is its high byte before its low byte. -/
@[simp] theorem highByte_append_lowByte (w : Word) : (highByte w ++ lowByte w : Word) = w := by
  apply BitVec.eq_of_toNat_eq
  have := w.isLt
  rw [BitVec.toNat_append, ← Nat.shiftLeft_add_eq_or_of_lt (lowByte w).isLt, Nat.shiftLeft_eq,
    highByte_toNat, lowByte_toNat]
  omega

/-! ### The one way a word decodes -/

/-- A word above 0 decodes by the row its opcode selects. -/
theorem decodeWord_of_opcode {w : Word} {i : Instr} {n : Nat} (h0 : 0 < w.toNat)
    (hop : w.toNat / 4096 = n) (h : decodeOpcode n w = .ok i) : decodeWord w = .ok i := by
  have hw : w ≠ 0 := by
    rintro rfl
    simp at h0
  rw [decodeWord, if_neg hw, opcodeOf_eq_div, hop, h]

end Sys2Proof
end

