-- ==== Sys2Proof/Laws/State.lean ====
section
/-! SUPPORT. What each update of the state leaves in each field, one lemma for each pair, so that no
later proof unfolds an update; then registers and bytes seen through the updates. -/

namespace Sys2Proof.Machine

/-! ### setReg -/

@[simp] theorem State.setReg_x (s : State) (i : Fin 8) (v : Byte) : (s.setReg i v).x = s.x.set i.val v i.isLt := rfl
@[simp] theorem State.setReg_pc (s : State) (i : Fin 8) (v : Byte) : (s.setReg i v).pc = s.pc := rfl
@[simp] theorem State.setReg_a (s : State) (i : Fin 8) (v : Byte) : (s.setReg i v).a = s.a := rfl
@[simp] theorem State.setReg_m (s : State) (i : Fin 8) (v : Byte) : (s.setReg i v).m = s.m := rfl
@[simp] theorem State.setReg_t (s : State) (i : Fin 8) (v : Byte) : (s.setReg i v).t = s.t := rfl
@[simp] theorem State.setReg_rs (s : State) (i : Fin 8) (v : Byte) : (s.setReg i v).rs = s.rs := rfl
@[simp] theorem State.setReg_rom (s : State) (i : Fin 8) (v : Byte) : (s.setReg i v).rom = s.rom := rfl
@[simp] theorem State.setReg_ram (s : State) (i : Fin 8) (v : Byte) : (s.setReg i v).ram = s.ram := rfl
@[simp] theorem State.setReg_screen (s : State) (i : Fin 8) (v : Byte) : (s.setReg i v).screen = s.screen := rfl
@[simp] theorem State.setReg_diags (s : State) (i : Fin 8) (v : Byte) : (s.setReg i v).diags = s.diags := rfl
@[simp] theorem State.setReg_displayCalls (s : State) (i : Fin 8) (v : Byte) : (s.setReg i v).displayCalls = s.displayCalls := rfl
@[simp] theorem State.setReg_replies (s : State) (i : Fin 8) (v : Byte) : (s.setReg i v).replies = s.replies := rfl
@[simp] theorem State.setReg_keyReads (s : State) (i : Fin 8) (v : Byte) : (s.setReg i v).keyReads = s.keyReads := rfl
@[simp] theorem State.setReg_tickDraws (s : State) (i : Fin 8) (v : Byte) : (s.setReg i v).tickDraws = s.tickDraws := rfl
@[simp] theorem State.setReg_agenda (s : State) (i : Fin 8) (v : Byte) : (s.setReg i v).agenda = s.agenda := rfl
@[simp] theorem State.setReg_hostStepped (s : State) (i : Fin 8) (v : Byte) : (s.setReg i v).hostStepped = s.hostStepped := rfl

/-! ### setPc -/

@[simp] theorem State.setPc_x (s : State) (p : Pc) : (s.setPc p).x = s.x := rfl
@[simp] theorem State.setPc_pc (s : State) (p : Pc) : (s.setPc p).pc = p := rfl
@[simp] theorem State.setPc_a (s : State) (p : Pc) : (s.setPc p).a = s.a := rfl
@[simp] theorem State.setPc_m (s : State) (p : Pc) : (s.setPc p).m = s.m := rfl
@[simp] theorem State.setPc_t (s : State) (p : Pc) : (s.setPc p).t = s.t := rfl
@[simp] theorem State.setPc_rs (s : State) (p : Pc) : (s.setPc p).rs = s.rs := rfl
@[simp] theorem State.setPc_rom (s : State) (p : Pc) : (s.setPc p).rom = s.rom := rfl
@[simp] theorem State.setPc_ram (s : State) (p : Pc) : (s.setPc p).ram = s.ram := rfl
@[simp] theorem State.setPc_screen (s : State) (p : Pc) : (s.setPc p).screen = s.screen := rfl
@[simp] theorem State.setPc_diags (s : State) (p : Pc) : (s.setPc p).diags = s.diags := rfl
@[simp] theorem State.setPc_displayCalls (s : State) (p : Pc) : (s.setPc p).displayCalls = s.displayCalls := rfl
@[simp] theorem State.setPc_replies (s : State) (p : Pc) : (s.setPc p).replies = s.replies := rfl
@[simp] theorem State.setPc_keyReads (s : State) (p : Pc) : (s.setPc p).keyReads = s.keyReads := rfl
@[simp] theorem State.setPc_tickDraws (s : State) (p : Pc) : (s.setPc p).tickDraws = s.tickDraws := rfl
@[simp] theorem State.setPc_agenda (s : State) (p : Pc) : (s.setPc p).agenda = s.agenda := rfl
@[simp] theorem State.setPc_hostStepped (s : State) (p : Pc) : (s.setPc p).hostStepped = s.hostStepped := rfl

/-! ### setAddr -/

@[simp] theorem State.setAddr_x (s : State) (v : Addr) : (s.setAddr v).x = s.x := rfl
@[simp] theorem State.setAddr_pc (s : State) (v : Addr) : (s.setAddr v).pc = s.pc := rfl
@[simp] theorem State.setAddr_a (s : State) (v : Addr) : (s.setAddr v).a = v := rfl
@[simp] theorem State.setAddr_m (s : State) (v : Addr) : (s.setAddr v).m = s.m := rfl
@[simp] theorem State.setAddr_t (s : State) (v : Addr) : (s.setAddr v).t = s.t := rfl
@[simp] theorem State.setAddr_rs (s : State) (v : Addr) : (s.setAddr v).rs = s.rs := rfl
@[simp] theorem State.setAddr_rom (s : State) (v : Addr) : (s.setAddr v).rom = s.rom := rfl
@[simp] theorem State.setAddr_ram (s : State) (v : Addr) : (s.setAddr v).ram = s.ram := rfl
@[simp] theorem State.setAddr_screen (s : State) (v : Addr) : (s.setAddr v).screen = s.screen := rfl
@[simp] theorem State.setAddr_diags (s : State) (v : Addr) : (s.setAddr v).diags = s.diags := rfl
@[simp] theorem State.setAddr_displayCalls (s : State) (v : Addr) : (s.setAddr v).displayCalls = s.displayCalls := rfl
@[simp] theorem State.setAddr_replies (s : State) (v : Addr) : (s.setAddr v).replies = s.replies := rfl
@[simp] theorem State.setAddr_keyReads (s : State) (v : Addr) : (s.setAddr v).keyReads = s.keyReads := rfl
@[simp] theorem State.setAddr_tickDraws (s : State) (v : Addr) : (s.setAddr v).tickDraws = s.tickDraws := rfl
@[simp] theorem State.setAddr_agenda (s : State) (v : Addr) : (s.setAddr v).agenda = s.agenda := rfl
@[simp] theorem State.setAddr_hostStepped (s : State) (v : Addr) : (s.setAddr v).hostStepped = s.hostStepped := rfl

/-! ### setBank -/

@[simp] theorem State.setBank_x (s : State) (b : Bank) : (s.setBank b).x = s.x := rfl
@[simp] theorem State.setBank_pc (s : State) (b : Bank) : (s.setBank b).pc = s.pc := rfl
@[simp] theorem State.setBank_a (s : State) (b : Bank) : (s.setBank b).a = s.a := rfl
@[simp] theorem State.setBank_m (s : State) (b : Bank) : (s.setBank b).m = b := rfl
@[simp] theorem State.setBank_t (s : State) (b : Bank) : (s.setBank b).t = s.t := rfl
@[simp] theorem State.setBank_rs (s : State) (b : Bank) : (s.setBank b).rs = s.rs := rfl
@[simp] theorem State.setBank_rom (s : State) (b : Bank) : (s.setBank b).rom = s.rom := rfl
@[simp] theorem State.setBank_ram (s : State) (b : Bank) : (s.setBank b).ram = s.ram := rfl
@[simp] theorem State.setBank_screen (s : State) (b : Bank) : (s.setBank b).screen = s.screen := rfl
@[simp] theorem State.setBank_diags (s : State) (b : Bank) : (s.setBank b).diags = s.diags := rfl
@[simp] theorem State.setBank_displayCalls (s : State) (b : Bank) : (s.setBank b).displayCalls = s.displayCalls := rfl
@[simp] theorem State.setBank_replies (s : State) (b : Bank) : (s.setBank b).replies = s.replies := rfl
@[simp] theorem State.setBank_keyReads (s : State) (b : Bank) : (s.setBank b).keyReads = s.keyReads := rfl
@[simp] theorem State.setBank_tickDraws (s : State) (b : Bank) : (s.setBank b).tickDraws = s.tickDraws := rfl
@[simp] theorem State.setBank_agenda (s : State) (b : Bank) : (s.setBank b).agenda = s.agenda := rfl
@[simp] theorem State.setBank_hostStepped (s : State) (b : Bank) : (s.setBank b).hostStepped = s.hostStepped := rfl

/-! ### setTimer -/

@[simp] theorem State.setTimer_x (s : State) (v : Byte) : (s.setTimer v).x = s.x := rfl
@[simp] theorem State.setTimer_pc (s : State) (v : Byte) : (s.setTimer v).pc = s.pc := rfl
@[simp] theorem State.setTimer_a (s : State) (v : Byte) : (s.setTimer v).a = s.a := rfl
@[simp] theorem State.setTimer_m (s : State) (v : Byte) : (s.setTimer v).m = s.m := rfl
@[simp] theorem State.setTimer_t (s : State) (v : Byte) : (s.setTimer v).t = v := rfl
@[simp] theorem State.setTimer_rs (s : State) (v : Byte) : (s.setTimer v).rs = s.rs := rfl
@[simp] theorem State.setTimer_rom (s : State) (v : Byte) : (s.setTimer v).rom = s.rom := rfl
@[simp] theorem State.setTimer_ram (s : State) (v : Byte) : (s.setTimer v).ram = s.ram := rfl
@[simp] theorem State.setTimer_screen (s : State) (v : Byte) : (s.setTimer v).screen = s.screen := rfl
@[simp] theorem State.setTimer_diags (s : State) (v : Byte) : (s.setTimer v).diags = s.diags := rfl
@[simp] theorem State.setTimer_displayCalls (s : State) (v : Byte) : (s.setTimer v).displayCalls = s.displayCalls := rfl
@[simp] theorem State.setTimer_replies (s : State) (v : Byte) : (s.setTimer v).replies = s.replies := rfl
@[simp] theorem State.setTimer_keyReads (s : State) (v : Byte) : (s.setTimer v).keyReads = s.keyReads := rfl
@[simp] theorem State.setTimer_tickDraws (s : State) (v : Byte) : (s.setTimer v).tickDraws = s.tickDraws := rfl
@[simp] theorem State.setTimer_agenda (s : State) (v : Byte) : (s.setTimer v).agenda = s.agenda := rfl
@[simp] theorem State.setTimer_hostStepped (s : State) (v : Byte) : (s.setTimer v).hostStepped = s.hostStepped := rfl

/-! ### setRunState -/

@[simp] theorem State.setRunState_x (s : State) (r : RunState) : (s.setRunState r).x = s.x := rfl
@[simp] theorem State.setRunState_pc (s : State) (r : RunState) : (s.setRunState r).pc = s.pc := rfl
@[simp] theorem State.setRunState_a (s : State) (r : RunState) : (s.setRunState r).a = s.a := rfl
@[simp] theorem State.setRunState_m (s : State) (r : RunState) : (s.setRunState r).m = s.m := rfl
@[simp] theorem State.setRunState_t (s : State) (r : RunState) : (s.setRunState r).t = s.t := rfl
@[simp] theorem State.setRunState_rs (s : State) (r : RunState) : (s.setRunState r).rs = r := rfl
@[simp] theorem State.setRunState_rom (s : State) (r : RunState) : (s.setRunState r).rom = s.rom := rfl
@[simp] theorem State.setRunState_ram (s : State) (r : RunState) : (s.setRunState r).ram = s.ram := rfl
@[simp] theorem State.setRunState_screen (s : State) (r : RunState) : (s.setRunState r).screen = s.screen := rfl
@[simp] theorem State.setRunState_diags (s : State) (r : RunState) : (s.setRunState r).diags = s.diags := rfl
@[simp] theorem State.setRunState_displayCalls (s : State) (r : RunState) : (s.setRunState r).displayCalls = s.displayCalls := rfl
@[simp] theorem State.setRunState_replies (s : State) (r : RunState) : (s.setRunState r).replies = s.replies := rfl
@[simp] theorem State.setRunState_keyReads (s : State) (r : RunState) : (s.setRunState r).keyReads = s.keyReads := rfl
@[simp] theorem State.setRunState_tickDraws (s : State) (r : RunState) : (s.setRunState r).tickDraws = s.tickDraws := rfl
@[simp] theorem State.setRunState_agenda (s : State) (r : RunState) : (s.setRunState r).agenda = s.agenda := rfl
@[simp] theorem State.setRunState_hostStepped (s : State) (r : RunState) : (s.setRunState r).hostStepped = s.hostStepped := rfl

/-! ### emit -/

@[simp] theorem State.emit_x (s : State) (d : Diag) : (s.emit d).x = s.x := rfl
@[simp] theorem State.emit_pc (s : State) (d : Diag) : (s.emit d).pc = s.pc := rfl
@[simp] theorem State.emit_a (s : State) (d : Diag) : (s.emit d).a = s.a := rfl
@[simp] theorem State.emit_m (s : State) (d : Diag) : (s.emit d).m = s.m := rfl
@[simp] theorem State.emit_t (s : State) (d : Diag) : (s.emit d).t = s.t := rfl
@[simp] theorem State.emit_rs (s : State) (d : Diag) : (s.emit d).rs = s.rs := rfl
@[simp] theorem State.emit_rom (s : State) (d : Diag) : (s.emit d).rom = s.rom := rfl
@[simp] theorem State.emit_ram (s : State) (d : Diag) : (s.emit d).ram = s.ram := rfl
@[simp] theorem State.emit_screen (s : State) (d : Diag) : (s.emit d).screen = s.screen := rfl
@[simp] theorem State.emit_diags (s : State) (d : Diag) : (s.emit d).diags = s.diags ++ [d] := rfl
@[simp] theorem State.emit_displayCalls (s : State) (d : Diag) : (s.emit d).displayCalls = s.displayCalls := rfl
@[simp] theorem State.emit_replies (s : State) (d : Diag) : (s.emit d).replies = s.replies := rfl
@[simp] theorem State.emit_keyReads (s : State) (d : Diag) : (s.emit d).keyReads = s.keyReads := rfl
@[simp] theorem State.emit_tickDraws (s : State) (d : Diag) : (s.emit d).tickDraws = s.tickDraws := rfl
@[simp] theorem State.emit_agenda (s : State) (d : Diag) : (s.emit d).agenda = s.agenda := rfl
@[simp] theorem State.emit_hostStepped (s : State) (d : Diag) : (s.emit d).hostStepped = s.hostStepped := rfl

/-! ### reply -/

@[simp] theorem State.reply_x (s : State) (r : HostReply) : (s.reply r).x = s.x := rfl
@[simp] theorem State.reply_pc (s : State) (r : HostReply) : (s.reply r).pc = s.pc := rfl
@[simp] theorem State.reply_a (s : State) (r : HostReply) : (s.reply r).a = s.a := rfl
@[simp] theorem State.reply_m (s : State) (r : HostReply) : (s.reply r).m = s.m := rfl
@[simp] theorem State.reply_t (s : State) (r : HostReply) : (s.reply r).t = s.t := rfl
@[simp] theorem State.reply_rs (s : State) (r : HostReply) : (s.reply r).rs = s.rs := rfl
@[simp] theorem State.reply_rom (s : State) (r : HostReply) : (s.reply r).rom = s.rom := rfl
@[simp] theorem State.reply_ram (s : State) (r : HostReply) : (s.reply r).ram = s.ram := rfl
@[simp] theorem State.reply_screen (s : State) (r : HostReply) : (s.reply r).screen = s.screen := rfl
@[simp] theorem State.reply_diags (s : State) (r : HostReply) : (s.reply r).diags = s.diags := rfl
@[simp] theorem State.reply_displayCalls (s : State) (r : HostReply) : (s.reply r).displayCalls = s.displayCalls := rfl
@[simp] theorem State.reply_replies (s : State) (r : HostReply) : (s.reply r).replies = s.replies ++ [r] := rfl
@[simp] theorem State.reply_keyReads (s : State) (r : HostReply) : (s.reply r).keyReads = s.keyReads := rfl
@[simp] theorem State.reply_tickDraws (s : State) (r : HostReply) : (s.reply r).tickDraws = s.tickDraws := rfl
@[simp] theorem State.reply_agenda (s : State) (r : HostReply) : (s.reply r).agenda = s.agenda := rfl
@[simp] theorem State.reply_hostStepped (s : State) (r : HostReply) : (s.reply r).hostStepped = s.hostStepped := rfl

/-! ### setAgenda -/

@[simp] theorem State.setAgenda_x (s : State) (ms : List Move) : (s.setAgenda ms).x = s.x := rfl
@[simp] theorem State.setAgenda_pc (s : State) (ms : List Move) : (s.setAgenda ms).pc = s.pc := rfl
@[simp] theorem State.setAgenda_a (s : State) (ms : List Move) : (s.setAgenda ms).a = s.a := rfl
@[simp] theorem State.setAgenda_m (s : State) (ms : List Move) : (s.setAgenda ms).m = s.m := rfl
@[simp] theorem State.setAgenda_t (s : State) (ms : List Move) : (s.setAgenda ms).t = s.t := rfl
@[simp] theorem State.setAgenda_rs (s : State) (ms : List Move) : (s.setAgenda ms).rs = s.rs := rfl
@[simp] theorem State.setAgenda_rom (s : State) (ms : List Move) : (s.setAgenda ms).rom = s.rom := rfl
@[simp] theorem State.setAgenda_ram (s : State) (ms : List Move) : (s.setAgenda ms).ram = s.ram := rfl
@[simp] theorem State.setAgenda_screen (s : State) (ms : List Move) : (s.setAgenda ms).screen = s.screen := rfl
@[simp] theorem State.setAgenda_diags (s : State) (ms : List Move) : (s.setAgenda ms).diags = s.diags := rfl
@[simp] theorem State.setAgenda_displayCalls (s : State) (ms : List Move) : (s.setAgenda ms).displayCalls = s.displayCalls := rfl
@[simp] theorem State.setAgenda_replies (s : State) (ms : List Move) : (s.setAgenda ms).replies = s.replies := rfl
@[simp] theorem State.setAgenda_keyReads (s : State) (ms : List Move) : (s.setAgenda ms).keyReads = s.keyReads := rfl
@[simp] theorem State.setAgenda_tickDraws (s : State) (ms : List Move) : (s.setAgenda ms).tickDraws = s.tickDraws := rfl
@[simp] theorem State.setAgenda_agenda (s : State) (ms : List Move) : (s.setAgenda ms).agenda = ms := rfl
@[simp] theorem State.setAgenda_hostStepped (s : State) (ms : List Move) : (s.setAgenda ms).hostStepped = s.hostStepped := rfl

/-! ### noteStep -/

@[simp] theorem State.noteStep_x (s : State) (byHost : Bool) : (s.noteStep byHost).x = s.x := rfl
@[simp] theorem State.noteStep_pc (s : State) (byHost : Bool) : (s.noteStep byHost).pc = s.pc := rfl
@[simp] theorem State.noteStep_a (s : State) (byHost : Bool) : (s.noteStep byHost).a = s.a := rfl
@[simp] theorem State.noteStep_m (s : State) (byHost : Bool) : (s.noteStep byHost).m = s.m := rfl
@[simp] theorem State.noteStep_t (s : State) (byHost : Bool) : (s.noteStep byHost).t = s.t := rfl
@[simp] theorem State.noteStep_rs (s : State) (byHost : Bool) : (s.noteStep byHost).rs = s.rs := rfl
@[simp] theorem State.noteStep_rom (s : State) (byHost : Bool) : (s.noteStep byHost).rom = s.rom := rfl
@[simp] theorem State.noteStep_ram (s : State) (byHost : Bool) : (s.noteStep byHost).ram = s.ram := rfl
@[simp] theorem State.noteStep_screen (s : State) (byHost : Bool) : (s.noteStep byHost).screen = s.screen := rfl
@[simp] theorem State.noteStep_diags (s : State) (byHost : Bool) : (s.noteStep byHost).diags = s.diags := rfl
@[simp] theorem State.noteStep_displayCalls (s : State) (byHost : Bool) : (s.noteStep byHost).displayCalls = s.displayCalls := rfl
@[simp] theorem State.noteStep_replies (s : State) (byHost : Bool) : (s.noteStep byHost).replies = s.replies := rfl
@[simp] theorem State.noteStep_keyReads (s : State) (byHost : Bool) : (s.noteStep byHost).keyReads = s.keyReads := rfl
@[simp] theorem State.noteStep_tickDraws (s : State) (byHost : Bool) : (s.noteStep byHost).tickDraws = s.tickDraws := rfl
@[simp] theorem State.noteStep_agenda (s : State) (byHost : Bool) : (s.noteStep byHost).agenda = s.agenda := rfl
@[simp] theorem State.noteStep_hostStepped (s : State) (byHost : Bool) : (s.noteStep byHost).hostStepped = byHost := rfl

/-! ### countTickDraw -/

@[simp] theorem State.countTickDraw_x (s : State) : (s.countTickDraw).x = s.x := rfl
@[simp] theorem State.countTickDraw_pc (s : State) : (s.countTickDraw).pc = s.pc := rfl
@[simp] theorem State.countTickDraw_a (s : State) : (s.countTickDraw).a = s.a := rfl
@[simp] theorem State.countTickDraw_m (s : State) : (s.countTickDraw).m = s.m := rfl
@[simp] theorem State.countTickDraw_t (s : State) : (s.countTickDraw).t = s.t := rfl
@[simp] theorem State.countTickDraw_rs (s : State) : (s.countTickDraw).rs = s.rs := rfl
@[simp] theorem State.countTickDraw_rom (s : State) : (s.countTickDraw).rom = s.rom := rfl
@[simp] theorem State.countTickDraw_ram (s : State) : (s.countTickDraw).ram = s.ram := rfl
@[simp] theorem State.countTickDraw_screen (s : State) : (s.countTickDraw).screen = s.screen := rfl
@[simp] theorem State.countTickDraw_diags (s : State) : (s.countTickDraw).diags = s.diags := rfl
@[simp] theorem State.countTickDraw_displayCalls (s : State) : (s.countTickDraw).displayCalls = s.displayCalls := rfl
@[simp] theorem State.countTickDraw_replies (s : State) : (s.countTickDraw).replies = s.replies := rfl
@[simp] theorem State.countTickDraw_keyReads (s : State) : (s.countTickDraw).keyReads = s.keyReads := rfl
@[simp] theorem State.countTickDraw_tickDraws (s : State) : (s.countTickDraw).tickDraws = s.tickDraws + 1 := rfl
@[simp] theorem State.countTickDraw_agenda (s : State) : (s.countTickDraw).agenda = s.agenda := rfl
@[simp] theorem State.countTickDraw_hostStepped (s : State) : (s.countTickDraw).hostStepped = s.hostStepped := rfl

/-! ### countKeyRead -/

@[simp] theorem State.countKeyRead_x (s : State) : (s.countKeyRead).x = s.x := rfl
@[simp] theorem State.countKeyRead_pc (s : State) : (s.countKeyRead).pc = s.pc := rfl
@[simp] theorem State.countKeyRead_a (s : State) : (s.countKeyRead).a = s.a := rfl
@[simp] theorem State.countKeyRead_m (s : State) : (s.countKeyRead).m = s.m := rfl
@[simp] theorem State.countKeyRead_t (s : State) : (s.countKeyRead).t = s.t := rfl
@[simp] theorem State.countKeyRead_rs (s : State) : (s.countKeyRead).rs = s.rs := rfl
@[simp] theorem State.countKeyRead_rom (s : State) : (s.countKeyRead).rom = s.rom := rfl
@[simp] theorem State.countKeyRead_ram (s : State) : (s.countKeyRead).ram = s.ram := rfl
@[simp] theorem State.countKeyRead_screen (s : State) : (s.countKeyRead).screen = s.screen := rfl
@[simp] theorem State.countKeyRead_diags (s : State) : (s.countKeyRead).diags = s.diags := rfl
@[simp] theorem State.countKeyRead_displayCalls (s : State) : (s.countKeyRead).displayCalls = s.displayCalls := rfl
@[simp] theorem State.countKeyRead_replies (s : State) : (s.countKeyRead).replies = s.replies := rfl
@[simp] theorem State.countKeyRead_keyReads (s : State) : (s.countKeyRead).keyReads = s.keyReads + 1 := rfl
@[simp] theorem State.countKeyRead_tickDraws (s : State) : (s.countKeyRead).tickDraws = s.tickDraws := rfl
@[simp] theorem State.countKeyRead_agenda (s : State) : (s.countKeyRead).agenda = s.agenda := rfl
@[simp] theorem State.countKeyRead_hostStepped (s : State) : (s.countKeyRead).hostStepped = s.hostStepped := rfl

/-! ### displaySet -/

@[simp] theorem State.displaySet_x (s : State) (i j : Fin 8) (c : Byte) : (s.displaySet i j c).x = s.x := rfl
@[simp] theorem State.displaySet_pc (s : State) (i j : Fin 8) (c : Byte) : (s.displaySet i j c).pc = s.pc := rfl
@[simp] theorem State.displaySet_a (s : State) (i j : Fin 8) (c : Byte) : (s.displaySet i j c).a = s.a := rfl
@[simp] theorem State.displaySet_m (s : State) (i j : Fin 8) (c : Byte) : (s.displaySet i j c).m = s.m := rfl
@[simp] theorem State.displaySet_t (s : State) (i j : Fin 8) (c : Byte) : (s.displaySet i j c).t = s.t := rfl
@[simp] theorem State.displaySet_rs (s : State) (i j : Fin 8) (c : Byte) : (s.displaySet i j c).rs = s.rs := rfl
@[simp] theorem State.displaySet_rom (s : State) (i j : Fin 8) (c : Byte) : (s.displaySet i j c).rom = s.rom := rfl
@[simp] theorem State.displaySet_ram (s : State) (i j : Fin 8) (c : Byte) : (s.displaySet i j c).ram = s.ram := rfl
@[simp] theorem State.displaySet_screen (s : State) (i j : Fin 8) (c : Byte) : (s.displaySet i j c).screen = s.screen.set j.val ((s.screen.get j).set i.val c i.isLt) j.isLt := rfl
@[simp] theorem State.displaySet_diags (s : State) (i j : Fin 8) (c : Byte) : (s.displaySet i j c).diags = s.diags := rfl
@[simp] theorem State.displaySet_displayCalls (s : State) (i j : Fin 8) (c : Byte) : (s.displaySet i j c).displayCalls = s.displayCalls ++ [.set i j c] := rfl
@[simp] theorem State.displaySet_replies (s : State) (i j : Fin 8) (c : Byte) : (s.displaySet i j c).replies = s.replies := rfl
@[simp] theorem State.displaySet_keyReads (s : State) (i j : Fin 8) (c : Byte) : (s.displaySet i j c).keyReads = s.keyReads := rfl
@[simp] theorem State.displaySet_tickDraws (s : State) (i j : Fin 8) (c : Byte) : (s.displaySet i j c).tickDraws = s.tickDraws := rfl
@[simp] theorem State.displaySet_agenda (s : State) (i j : Fin 8) (c : Byte) : (s.displaySet i j c).agenda = s.agenda := rfl
@[simp] theorem State.displaySet_hostStepped (s : State) (i j : Fin 8) (c : Byte) : (s.displaySet i j c).hostStepped = s.hostStepped := rfl

/-! ### displayRender -/

@[simp] theorem State.displayRender_x (s : State) : (s.displayRender).x = s.x := rfl
@[simp] theorem State.displayRender_pc (s : State) : (s.displayRender).pc = s.pc := rfl
@[simp] theorem State.displayRender_a (s : State) : (s.displayRender).a = s.a := rfl
@[simp] theorem State.displayRender_m (s : State) : (s.displayRender).m = s.m := rfl
@[simp] theorem State.displayRender_t (s : State) : (s.displayRender).t = s.t := rfl
@[simp] theorem State.displayRender_rs (s : State) : (s.displayRender).rs = s.rs := rfl
@[simp] theorem State.displayRender_rom (s : State) : (s.displayRender).rom = s.rom := rfl
@[simp] theorem State.displayRender_ram (s : State) : (s.displayRender).ram = s.ram := rfl
@[simp] theorem State.displayRender_screen (s : State) : (s.displayRender).screen = s.screen := rfl
@[simp] theorem State.displayRender_diags (s : State) : (s.displayRender).diags = s.diags := rfl
@[simp] theorem State.displayRender_displayCalls (s : State) : (s.displayRender).displayCalls = s.displayCalls ++ [.render] := rfl
@[simp] theorem State.displayRender_replies (s : State) : (s.displayRender).replies = s.replies := rfl
@[simp] theorem State.displayRender_keyReads (s : State) : (s.displayRender).keyReads = s.keyReads := rfl
@[simp] theorem State.displayRender_tickDraws (s : State) : (s.displayRender).tickDraws = s.tickDraws := rfl
@[simp] theorem State.displayRender_agenda (s : State) : (s.displayRender).agenda = s.agenda := rfl
@[simp] theorem State.displayRender_hostStepped (s : State) : (s.displayRender).hostStepped = s.hostStepped := rfl

/-! ### advance -/

@[simp] theorem State.advance_x (s : State) : (s.advance).x = s.x := rfl
@[simp] theorem State.advance_pc (s : State) : (s.advance).pc = s.pc + 2 := rfl
@[simp] theorem State.advance_a (s : State) : (s.advance).a = s.a := rfl
@[simp] theorem State.advance_m (s : State) : (s.advance).m = s.m := rfl
@[simp] theorem State.advance_t (s : State) : (s.advance).t = s.t := rfl
@[simp] theorem State.advance_rs (s : State) : (s.advance).rs = s.rs := rfl
@[simp] theorem State.advance_rom (s : State) : (s.advance).rom = s.rom := rfl
@[simp] theorem State.advance_ram (s : State) : (s.advance).ram = s.ram := rfl
@[simp] theorem State.advance_screen (s : State) : (s.advance).screen = s.screen := rfl
@[simp] theorem State.advance_diags (s : State) : (s.advance).diags = s.diags := rfl
@[simp] theorem State.advance_displayCalls (s : State) : (s.advance).displayCalls = s.displayCalls := rfl
@[simp] theorem State.advance_replies (s : State) : (s.advance).replies = s.replies := rfl
@[simp] theorem State.advance_keyReads (s : State) : (s.advance).keyReads = s.keyReads := rfl
@[simp] theorem State.advance_tickDraws (s : State) : (s.advance).tickDraws = s.tickDraws := rfl
@[simp] theorem State.advance_agenda (s : State) : (s.advance).agenda = s.agenda := rfl
@[simp] theorem State.advance_hostStepped (s : State) : (s.advance).hostStepped = s.hostStepped := rfl

/-! ### skip -/

@[simp] theorem State.skip_x (s : State) : (s.skip).x = s.x := rfl
@[simp] theorem State.skip_pc (s : State) : (s.skip).pc = s.pc + 4 := rfl
@[simp] theorem State.skip_a (s : State) : (s.skip).a = s.a := rfl
@[simp] theorem State.skip_m (s : State) : (s.skip).m = s.m := rfl
@[simp] theorem State.skip_t (s : State) : (s.skip).t = s.t := rfl
@[simp] theorem State.skip_rs (s : State) : (s.skip).rs = s.rs := rfl
@[simp] theorem State.skip_rom (s : State) : (s.skip).rom = s.rom := rfl
@[simp] theorem State.skip_ram (s : State) : (s.skip).ram = s.ram := rfl
@[simp] theorem State.skip_screen (s : State) : (s.skip).screen = s.screen := rfl
@[simp] theorem State.skip_diags (s : State) : (s.skip).diags = s.diags := rfl
@[simp] theorem State.skip_displayCalls (s : State) : (s.skip).displayCalls = s.displayCalls := rfl
@[simp] theorem State.skip_replies (s : State) : (s.skip).replies = s.replies := rfl
@[simp] theorem State.skip_keyReads (s : State) : (s.skip).keyReads = s.keyReads := rfl
@[simp] theorem State.skip_tickDraws (s : State) : (s.skip).tickDraws = s.tickDraws := rfl
@[simp] theorem State.skip_agenda (s : State) : (s.skip).agenda = s.agenda := rfl
@[simp] theorem State.skip_hostStepped (s : State) : (s.skip).hostStepped = s.hostStepped := rfl

/-! ### stop -/

@[simp] theorem State.stop_x (s : State) : (s.stop).x = s.x := rfl
@[simp] theorem State.stop_pc (s : State) : (s.stop).pc = s.pc := rfl
@[simp] theorem State.stop_a (s : State) : (s.stop).a = s.a := rfl
@[simp] theorem State.stop_m (s : State) : (s.stop).m = s.m := rfl
@[simp] theorem State.stop_t (s : State) : (s.stop).t = s.t := rfl
@[simp] theorem State.stop_rs (s : State) : (s.stop).rs = .stopped := rfl
@[simp] theorem State.stop_rom (s : State) : (s.stop).rom = s.rom := rfl
@[simp] theorem State.stop_ram (s : State) : (s.stop).ram = s.ram := rfl
@[simp] theorem State.stop_screen (s : State) : (s.stop).screen = s.screen := rfl
@[simp] theorem State.stop_diags (s : State) : (s.stop).diags = s.diags := rfl
@[simp] theorem State.stop_displayCalls (s : State) : (s.stop).displayCalls = s.displayCalls := rfl
@[simp] theorem State.stop_replies (s : State) : (s.stop).replies = s.replies := rfl
@[simp] theorem State.stop_keyReads (s : State) : (s.stop).keyReads = s.keyReads := rfl
@[simp] theorem State.stop_tickDraws (s : State) : (s.stop).tickDraws = s.tickDraws := rfl
@[simp] theorem State.stop_agenda (s : State) : (s.stop).agenda = s.agenda := rfl
@[simp] theorem State.stop_hostStepped (s : State) : (s.stop).hostStepped = s.hostStepped := rfl

/-! ### raise -/

@[simp] theorem State.raise_x (s : State) (c : Cause) : (s.raise c).x = s.x := rfl
@[simp] theorem State.raise_pc (s : State) (c : Cause) : (s.raise c).pc = s.pc := rfl
@[simp] theorem State.raise_a (s : State) (c : Cause) : (s.raise c).a = s.a := rfl
@[simp] theorem State.raise_m (s : State) (c : Cause) : (s.raise c).m = s.m := rfl
@[simp] theorem State.raise_t (s : State) (c : Cause) : (s.raise c).t = s.t := rfl
@[simp] theorem State.raise_rs (s : State) (c : Cause) : (s.raise c).rs = .stopped := rfl
@[simp] theorem State.raise_rom (s : State) (c : Cause) : (s.raise c).rom = s.rom := rfl
@[simp] theorem State.raise_ram (s : State) (c : Cause) : (s.raise c).ram = s.ram := rfl
@[simp] theorem State.raise_screen (s : State) (c : Cause) : (s.raise c).screen = s.screen := rfl
@[simp] theorem State.raise_diags (s : State) (c : Cause) : (s.raise c).diags = s.diags ++ [.fault c] := rfl
@[simp] theorem State.raise_displayCalls (s : State) (c : Cause) : (s.raise c).displayCalls = s.displayCalls := rfl
@[simp] theorem State.raise_replies (s : State) (c : Cause) : (s.raise c).replies = s.replies := rfl
@[simp] theorem State.raise_keyReads (s : State) (c : Cause) : (s.raise c).keyReads = s.keyReads := rfl
@[simp] theorem State.raise_tickDraws (s : State) (c : Cause) : (s.raise c).tickDraws = s.tickDraws := rfl
@[simp] theorem State.raise_agenda (s : State) (c : Cause) : (s.raise c).agenda = s.agenda := rfl
@[simp] theorem State.raise_hostStepped (s : State) (c : Cause) : (s.raise c).hostStepped = s.hostStepped := rfl

/-! ### tick -/

@[simp] theorem State.tick_x (s : State) : (s.tick).x = s.x := rfl
@[simp] theorem State.tick_pc (s : State) : (s.tick).pc = s.pc := rfl
@[simp] theorem State.tick_a (s : State) : (s.tick).a = s.a := rfl
@[simp] theorem State.tick_m (s : State) : (s.tick).m = s.m := rfl
@[simp] theorem State.tick_t (s : State) : (s.tick).t = tickCount s.t := rfl
@[simp] theorem State.tick_rs (s : State) : (s.tick).rs = s.rs := rfl
@[simp] theorem State.tick_rom (s : State) : (s.tick).rom = s.rom := rfl
@[simp] theorem State.tick_ram (s : State) : (s.tick).ram = s.ram := rfl
@[simp] theorem State.tick_screen (s : State) : (s.tick).screen = s.screen := rfl
@[simp] theorem State.tick_diags (s : State) : (s.tick).diags = s.diags := rfl
@[simp] theorem State.tick_displayCalls (s : State) : (s.tick).displayCalls = s.displayCalls := rfl
@[simp] theorem State.tick_replies (s : State) : (s.tick).replies = s.replies := rfl
@[simp] theorem State.tick_keyReads (s : State) : (s.tick).keyReads = s.keyReads := rfl
@[simp] theorem State.tick_tickDraws (s : State) : (s.tick).tickDraws = s.tickDraws := rfl
@[simp] theorem State.tick_agenda (s : State) : (s.tick).agenda = s.agenda := rfl
@[simp] theorem State.tick_hostStepped (s : State) : (s.tick).hostStepped = s.hostStepped := rfl

/-! ### start -/

@[simp] theorem State.start_x (s : State) : (s.start).x = s.x := rfl
@[simp] theorem State.start_pc (s : State) : (s.start).pc = 0 := rfl
@[simp] theorem State.start_a (s : State) : (s.start).a = s.a := rfl
@[simp] theorem State.start_m (s : State) : (s.start).m = s.m := rfl
@[simp] theorem State.start_t (s : State) : (s.start).t = s.t := rfl
@[simp] theorem State.start_rs (s : State) : (s.start).rs = .running := rfl
@[simp] theorem State.start_rom (s : State) : (s.start).rom = s.rom := rfl
@[simp] theorem State.start_ram (s : State) : (s.start).ram = s.ram := rfl
@[simp] theorem State.start_screen (s : State) : (s.start).screen = s.screen := rfl
@[simp] theorem State.start_diags (s : State) : (s.start).diags = s.diags := rfl
@[simp] theorem State.start_displayCalls (s : State) : (s.start).displayCalls = s.displayCalls := rfl
@[simp] theorem State.start_replies (s : State) : (s.start).replies = s.replies := rfl
@[simp] theorem State.start_keyReads (s : State) : (s.start).keyReads = s.keyReads := rfl
@[simp] theorem State.start_tickDraws (s : State) : (s.start).tickDraws = s.tickDraws := rfl
@[simp] theorem State.start_agenda (s : State) : (s.start).agenda = s.agenda := rfl
@[simp] theorem State.start_hostStepped (s : State) : (s.start).hostStepped = s.hostStepped := rfl

/-! ### setCells -/

@[simp] theorem State.setCells_x (s : State) (b : Bank) (mem : Memory) : (s.setCells b mem).x = s.x := by
  cases b <;> rfl
@[simp] theorem State.setCells_pc (s : State) (b : Bank) (mem : Memory) : (s.setCells b mem).pc = s.pc := by
  cases b <;> rfl
@[simp] theorem State.setCells_a (s : State) (b : Bank) (mem : Memory) : (s.setCells b mem).a = s.a := by
  cases b <;> rfl
@[simp] theorem State.setCells_m (s : State) (b : Bank) (mem : Memory) : (s.setCells b mem).m = s.m := by
  cases b <;> rfl
@[simp] theorem State.setCells_t (s : State) (b : Bank) (mem : Memory) : (s.setCells b mem).t = s.t := by
  cases b <;> rfl
@[simp] theorem State.setCells_rs (s : State) (b : Bank) (mem : Memory) : (s.setCells b mem).rs = s.rs := by
  cases b <;> rfl
@[simp] theorem State.setCells_screen (s : State) (b : Bank) (mem : Memory) : (s.setCells b mem).screen = s.screen := by
  cases b <;> rfl
@[simp] theorem State.setCells_diags (s : State) (b : Bank) (mem : Memory) : (s.setCells b mem).diags = s.diags := by
  cases b <;> rfl
@[simp] theorem State.setCells_displayCalls (s : State) (b : Bank) (mem : Memory) : (s.setCells b mem).displayCalls = s.displayCalls := by
  cases b <;> rfl
@[simp] theorem State.setCells_replies (s : State) (b : Bank) (mem : Memory) : (s.setCells b mem).replies = s.replies := by
  cases b <;> rfl
@[simp] theorem State.setCells_keyReads (s : State) (b : Bank) (mem : Memory) : (s.setCells b mem).keyReads = s.keyReads := by
  cases b <;> rfl
@[simp] theorem State.setCells_tickDraws (s : State) (b : Bank) (mem : Memory) : (s.setCells b mem).tickDraws = s.tickDraws := by
  cases b <;> rfl
@[simp] theorem State.setCells_agenda (s : State) (b : Bank) (mem : Memory) : (s.setCells b mem).agenda = s.agenda := by
  cases b <;> rfl
@[simp] theorem State.setCells_hostStepped (s : State) (b : Bank) (mem : Memory) : (s.setCells b mem).hostStepped = s.hostStepped := by
  cases b <;> rfl
@[simp] theorem State.cells_setCells (s : State) (b b' : Bank) (mem : Memory) :
    (s.setCells b mem).cells b' = if b' = b then mem else s.cells b' := by
  cases b <;> cases b' <;> rfl
@[simp] theorem State.cells_ram (s : State) : s.cells .ram = s.ram := rfl
@[simp] theorem State.cells_rom (s : State) : s.cells .rom = s.rom := rfl

/-! ### warnRomWrite -/

@[simp] theorem State.warnRomWrite_x (s : State) (b : Bank) (addr : Nat) (v : Byte) :
    (s.warnRomWrite b addr v).x = s.x := by
  cases b <;> rfl
@[simp] theorem State.warnRomWrite_pc (s : State) (b : Bank) (addr : Nat) (v : Byte) :
    (s.warnRomWrite b addr v).pc = s.pc := by
  cases b <;> rfl
@[simp] theorem State.warnRomWrite_a (s : State) (b : Bank) (addr : Nat) (v : Byte) :
    (s.warnRomWrite b addr v).a = s.a := by
  cases b <;> rfl
@[simp] theorem State.warnRomWrite_m (s : State) (b : Bank) (addr : Nat) (v : Byte) :
    (s.warnRomWrite b addr v).m = s.m := by
  cases b <;> rfl
@[simp] theorem State.warnRomWrite_t (s : State) (b : Bank) (addr : Nat) (v : Byte) :
    (s.warnRomWrite b addr v).t = s.t := by
  cases b <;> rfl
@[simp] theorem State.warnRomWrite_rs (s : State) (b : Bank) (addr : Nat) (v : Byte) :
    (s.warnRomWrite b addr v).rs = s.rs := by
  cases b <;> rfl
@[simp] theorem State.warnRomWrite_rom (s : State) (b : Bank) (addr : Nat) (v : Byte) :
    (s.warnRomWrite b addr v).rom = s.rom := by
  cases b <;> rfl
@[simp] theorem State.warnRomWrite_ram (s : State) (b : Bank) (addr : Nat) (v : Byte) :
    (s.warnRomWrite b addr v).ram = s.ram := by
  cases b <;> rfl
@[simp] theorem State.warnRomWrite_screen (s : State) (b : Bank) (addr : Nat) (v : Byte) :
    (s.warnRomWrite b addr v).screen = s.screen := by
  cases b <;> rfl
@[simp] theorem State.warnRomWrite_displayCalls (s : State) (b : Bank) (addr : Nat) (v : Byte) :
    (s.warnRomWrite b addr v).displayCalls = s.displayCalls := by
  cases b <;> rfl
@[simp] theorem State.warnRomWrite_replies (s : State) (b : Bank) (addr : Nat) (v : Byte) :
    (s.warnRomWrite b addr v).replies = s.replies := by
  cases b <;> rfl
@[simp] theorem State.warnRomWrite_keyReads (s : State) (b : Bank) (addr : Nat) (v : Byte) :
    (s.warnRomWrite b addr v).keyReads = s.keyReads := by
  cases b <;> rfl
@[simp] theorem State.warnRomWrite_tickDraws (s : State) (b : Bank) (addr : Nat) (v : Byte) :
    (s.warnRomWrite b addr v).tickDraws = s.tickDraws := by
  cases b <;> rfl
@[simp] theorem State.warnRomWrite_agenda (s : State) (b : Bank) (addr : Nat) (v : Byte) :
    (s.warnRomWrite b addr v).agenda = s.agenda := by
  cases b <;> rfl
@[simp] theorem State.warnRomWrite_hostStepped (s : State) (b : Bank) (addr : Nat) (v : Byte) :
    (s.warnRomWrite b addr v).hostStepped = s.hostStepped := by
  cases b <;> rfl
@[simp] theorem State.warnRomWrite_diags (s : State) (b : Bank) (addr : Nat) (v : Byte) :
    (s.warnRomWrite b addr v).diags = s.diags ++ if b = .rom then [.romWrite addr v] else [] := by
  cases b <;> simp [State.warnRomWrite]

/-! ### elapse -/

@[simp] theorem State.elapse_x (s : State) : s.elapse.x = s.x := by
  unfold State.elapse; split <;> rfl
@[simp] theorem State.elapse_pc (s : State) : s.elapse.pc = s.pc := by
  unfold State.elapse; split <;> rfl
@[simp] theorem State.elapse_a (s : State) : s.elapse.a = s.a := by
  unfold State.elapse; split <;> rfl
@[simp] theorem State.elapse_m (s : State) : s.elapse.m = s.m := by
  unfold State.elapse; split <;> rfl
@[simp] theorem State.elapse_rs (s : State) : s.elapse.rs = s.rs := by
  unfold State.elapse; split <;> rfl
@[simp] theorem State.elapse_rom (s : State) : s.elapse.rom = s.rom := by
  unfold State.elapse; split <;> rfl
@[simp] theorem State.elapse_ram (s : State) : s.elapse.ram = s.ram := by
  unfold State.elapse; split <;> rfl
@[simp] theorem State.elapse_screen (s : State) : s.elapse.screen = s.screen := by
  unfold State.elapse; split <;> rfl
@[simp] theorem State.elapse_diags (s : State) : s.elapse.diags = s.diags := by
  unfold State.elapse; split <;> rfl
@[simp] theorem State.elapse_displayCalls (s : State) : s.elapse.displayCalls = s.displayCalls := by
  unfold State.elapse; split <;> rfl
@[simp] theorem State.elapse_replies (s : State) : s.elapse.replies = s.replies := by
  unfold State.elapse; split <;> rfl
@[simp] theorem State.elapse_keyReads (s : State) : s.elapse.keyReads = s.keyReads := by
  unfold State.elapse; split <;> rfl
@[simp] theorem State.elapse_agenda (s : State) : s.elapse.agenda = s.agenda := by
  unfold State.elapse; split <;> rfl
@[simp] theorem State.elapse_hostStepped (s : State) : s.elapse.hostStepped = s.hostStepped := by
  unfold State.elapse; split <;> rfl

/-! ### Registers and bytes -/

@[simp] theorem State.reg_setReg_self (s : State) (i : Fin 8) (v : Byte) :
    (s.setReg i v).reg i = v := by
  simp [State.reg, Vector.get_eq_getElem]

theorem State.reg_setReg (s : State) (i j : Fin 8) (v : Byte) :
    (s.setReg i v).reg j = if j = i then v else s.reg j := by
  simp only [State.reg, State.setReg_x, Vector.get_eq_getElem, Vector.getElem_set, Fin.ext_iff]
  simp only [eq_comm]

/-- Registers are seen in the field `x` alone. -/
theorem State.reg_congr (s t : State) (h : t.x = s.x) (i : Fin 8) : t.reg i = s.reg i := by
  simp [State.reg, h]

/-- Bytes are seen in the two banks alone. -/
theorem State.byteAt_congr (s t : State) (hrom : t.rom = s.rom) (hram : t.ram = s.ram) (b : Bank)
    (addr : Nat) : t.byteAt b addr = s.byteAt b addr := by
  cases b <;> simp [State.byteAt, hrom, hram]

@[simp] theorem State.byteAt_setReg (s : State) (j : Fin 8) (v : Byte) (b : Bank) (addr : Nat) :
    (s.setReg j v).byteAt b addr = s.byteAt b addr := by
  cases b <;> rfl
@[simp] theorem State.reg_setPc (s : State) (p : Pc) (i : Fin 8) :
    (s.setPc p).reg i = s.reg i := rfl
@[simp] theorem State.byteAt_setPc (s : State) (p : Pc) (b : Bank) (addr : Nat) :
    (s.setPc p).byteAt b addr = s.byteAt b addr := by
  cases b <;> rfl
@[simp] theorem State.reg_setAddr (s : State) (v : Addr) (i : Fin 8) :
    (s.setAddr v).reg i = s.reg i := rfl
@[simp] theorem State.byteAt_setAddr (s : State) (v : Addr) (b : Bank) (addr : Nat) :
    (s.setAddr v).byteAt b addr = s.byteAt b addr := by
  cases b <;> rfl
@[simp] theorem State.reg_setBank (s : State) (m : Bank) (i : Fin 8) :
    (s.setBank m).reg i = s.reg i := rfl
@[simp] theorem State.byteAt_setBank (s : State) (m : Bank) (b : Bank) (addr : Nat) :
    (s.setBank m).byteAt b addr = s.byteAt b addr := by
  cases b <;> rfl
@[simp] theorem State.reg_setTimer (s : State) (v : Byte) (i : Fin 8) :
    (s.setTimer v).reg i = s.reg i := rfl
@[simp] theorem State.byteAt_setTimer (s : State) (v : Byte) (b : Bank) (addr : Nat) :
    (s.setTimer v).byteAt b addr = s.byteAt b addr := by
  cases b <;> rfl
@[simp] theorem State.reg_setRunState (s : State) (r : RunState) (i : Fin 8) :
    (s.setRunState r).reg i = s.reg i := rfl
@[simp] theorem State.byteAt_setRunState (s : State) (r : RunState) (b : Bank) (addr : Nat) :
    (s.setRunState r).byteAt b addr = s.byteAt b addr := by
  cases b <;> rfl
@[simp] theorem State.reg_emit (s : State) (d : Diag) (i : Fin 8) :
    (s.emit d).reg i = s.reg i := rfl
@[simp] theorem State.byteAt_emit (s : State) (d : Diag) (b : Bank) (addr : Nat) :
    (s.emit d).byteAt b addr = s.byteAt b addr := by
  cases b <;> rfl
@[simp] theorem State.reg_reply (s : State) (r : HostReply) (i : Fin 8) :
    (s.reply r).reg i = s.reg i := rfl
@[simp] theorem State.byteAt_reply (s : State) (r : HostReply) (b : Bank) (addr : Nat) :
    (s.reply r).byteAt b addr = s.byteAt b addr := by
  cases b <;> rfl
@[simp] theorem State.reg_setAgenda (s : State) (ms : List Move) (i : Fin 8) :
    (s.setAgenda ms).reg i = s.reg i := rfl
@[simp] theorem State.byteAt_setAgenda (s : State) (ms : List Move) (b : Bank) (addr : Nat) :
    (s.setAgenda ms).byteAt b addr = s.byteAt b addr := by
  cases b <;> rfl
@[simp] theorem State.reg_countTickDraw (s : State) (i : Fin 8) :
    (s.countTickDraw).reg i = s.reg i := rfl
@[simp] theorem State.byteAt_countTickDraw (s : State) (b : Bank) (addr : Nat) :
    (s.countTickDraw).byteAt b addr = s.byteAt b addr := by
  cases b <;> rfl
@[simp] theorem State.reg_noteStep (s : State) (byHost : Bool) (i : Fin 8) :
    (s.noteStep byHost).reg i = s.reg i := rfl
@[simp] theorem State.byteAt_noteStep (s : State) (byHost : Bool) (b : Bank) (addr : Nat) :
    (s.noteStep byHost).byteAt b addr = s.byteAt b addr := by
  cases b <;> rfl
@[simp] theorem State.reg_countKeyRead (s : State) (i : Fin 8) :
    (s.countKeyRead).reg i = s.reg i := rfl
@[simp] theorem State.byteAt_countKeyRead (s : State) (b : Bank) (addr : Nat) :
    (s.countKeyRead).byteAt b addr = s.byteAt b addr := by
  cases b <;> rfl
@[simp] theorem State.reg_displaySet (s : State) (j k : Fin 8) (c : Byte) (i : Fin 8) :
    (s.displaySet j k c).reg i = s.reg i := rfl
@[simp] theorem State.byteAt_displaySet (s : State) (j k : Fin 8) (c : Byte) (b : Bank) (addr : Nat) :
    (s.displaySet j k c).byteAt b addr = s.byteAt b addr := by
  cases b <;> rfl
@[simp] theorem State.reg_displayRender (s : State) (i : Fin 8) :
    (s.displayRender).reg i = s.reg i := rfl
@[simp] theorem State.byteAt_displayRender (s : State) (b : Bank) (addr : Nat) :
    (s.displayRender).byteAt b addr = s.byteAt b addr := by
  cases b <;> rfl
@[simp] theorem State.reg_advance (s : State) (i : Fin 8) :
    (s.advance).reg i = s.reg i := rfl
@[simp] theorem State.byteAt_advance (s : State) (b : Bank) (addr : Nat) :
    (s.advance).byteAt b addr = s.byteAt b addr := by
  cases b <;> rfl
@[simp] theorem State.reg_skip (s : State) (i : Fin 8) :
    (s.skip).reg i = s.reg i := rfl
@[simp] theorem State.byteAt_skip (s : State) (b : Bank) (addr : Nat) :
    (s.skip).byteAt b addr = s.byteAt b addr := by
  cases b <;> rfl
@[simp] theorem State.reg_stop (s : State) (i : Fin 8) :
    (s.stop).reg i = s.reg i := rfl
@[simp] theorem State.byteAt_stop (s : State) (b : Bank) (addr : Nat) :
    (s.stop).byteAt b addr = s.byteAt b addr := by
  cases b <;> rfl
@[simp] theorem State.reg_raise (s : State) (c : Cause) (i : Fin 8) :
    (s.raise c).reg i = s.reg i := rfl
@[simp] theorem State.byteAt_raise (s : State) (c : Cause) (b : Bank) (addr : Nat) :
    (s.raise c).byteAt b addr = s.byteAt b addr := by
  cases b <;> rfl
@[simp] theorem State.reg_tick (s : State) (i : Fin 8) :
    (s.tick).reg i = s.reg i := rfl
@[simp] theorem State.byteAt_tick (s : State) (b : Bank) (addr : Nat) :
    (s.tick).byteAt b addr = s.byteAt b addr := by
  cases b <;> rfl
@[simp] theorem State.reg_start (s : State) (i : Fin 8) :
    (s.start).reg i = s.reg i := rfl
@[simp] theorem State.byteAt_start (s : State) (b : Bank) (addr : Nat) :
    (s.start).byteAt b addr = s.byteAt b addr := by
  cases b <;> rfl
@[simp] theorem State.reg_setCells (s : State) (b : Bank) (mem : Memory) (i : Fin 8) :
    (s.setCells b mem).reg i = s.reg i := by
  cases b <;> rfl
@[simp] theorem State.reg_warnRomWrite (s : State) (b : Bank) (addr : Nat) (v : Byte) (i : Fin 8) :
    (s.warnRomWrite b addr v).reg i = s.reg i := by
  cases b <;> rfl
@[simp] theorem State.reg_elapse (s : State) (i : Fin 8) : s.elapse.reg i = s.reg i :=
  State.reg_congr _ _ (by simp) i
@[simp] theorem State.byteAt_elapse (s : State) (b : Bank) (addr : Nat) :
    s.elapse.byteAt b addr = s.byteAt b addr :=
  State.byteAt_congr _ _ (by simp) (by simp) b addr

end Sys2Proof.Machine
end

