-- ==== Sys2Proof/Laws/Memory.lean ====
section
/-! SUPPORT. The laws of a bank: a read after a write gives the byte written, a write leaves every other
byte alone, and every operation keeps the canonical form. -/

namespace Sys2Proof.Machine

@[simp] theorem Memory.read_nil (addr : Nat) : Memory.read [] addr = 0 := rfl

theorem Memory.read_cons (k : Nat) (v : Byte) (rest : Memory) (addr : Nat) :
    Memory.read ((k, v) :: rest) addr = if k = addr then v else Memory.read rest addr := rfl

/-- An address no entry has reads as 0. -/
theorem Memory.read_eq_zero {mem : Memory} {addr : Nat} (h : ∀ c ∈ mem, c.1 ≠ addr) :
    mem.read addr = 0 := by
  induction mem with
  | nil => rfl
  | cons c rest ih =>
    obtain ⟨k, v⟩ := c
    rw [Memory.read_cons, if_neg (h _ List.mem_cons_self)]
    exact ih fun c hc => h c (List.mem_cons_of_mem _ hc)

theorem Memory.read_erase (mem : Memory) (a b : Nat) :
    (mem.erase a).read b = if b = a then 0 else mem.read b := by
  induction mem with
  | nil => simp [Memory.erase]
  | cons c rest ih =>
    obtain ⟨k, v⟩ := c
    simp only [Memory.erase] at ih ⊢
    by_cases hk : k = a
    · subst hk
      by_cases hb : b = k
      · subst hb; simp [ih]
      · simp [ih, Memory.read_cons, hb, Ne.symm hb]
    · by_cases hb : b = a
      · subst hb; simp [ih, Memory.read_cons, hk]
      · simp [ih, Memory.read_cons, hk, hb]

theorem Memory.read_insert_self (mem : Memory) (a : Nat) (v : Byte) (h : ∀ c ∈ mem, c.1 ≠ a) :
    (mem.insert a v).read a = v := by
  induction mem with
  | nil => simp [Memory.insert, Memory.read_cons]
  | cons c rest ih =>
    obtain ⟨k, w⟩ := c
    have hk : k ≠ a := h _ List.mem_cons_self
    have hrest := ih fun c hc => h c (List.mem_cons_of_mem _ hc)
    unfold Memory.insert
    split <;> simp [Memory.read_cons, hk, hrest]

theorem Memory.read_insert_other (mem : Memory) {a b : Nat} (v : Byte) (h : b ≠ a) :
    (mem.insert a v).read b = mem.read b := by
  induction mem with
  | nil => simp [Memory.insert, Memory.read_cons, h.symm]
  | cons c rest ih =>
    obtain ⟨k, w⟩ := c
    unfold Memory.insert
    split <;> simp [Memory.read_cons, h.symm, ih]

theorem Memory.mem_erase {mem : Memory} {a : Nat} {c : Host.Cell} :
    c ∈ mem.erase a ↔ c ∈ mem ∧ c.1 ≠ a := by
  simp [Memory.erase]

/-- READ AFTER WRITE, in any list of cells: the byte written at `a`, the old byte everywhere else. -/
theorem Memory.read_write (mem : Memory) (a b : Nat) (v : Byte) :
    (mem.write a v).read b = if b = a then v else mem.read b := by
  unfold Memory.write
  by_cases hb : b = a
  · subst hb
    split
    · next hv => simp [Memory.read_erase, hv]
    · simp [Memory.read_insert_self _ _ _ fun c hc => (Memory.mem_erase.mp hc).2]
  · split
    · simp [Memory.read_erase, hb]
    · simp [Memory.read_insert_other _ _ hb, Memory.read_erase, hb]

theorem Memory.mem_insert {mem : Memory} {a : Nat} {v : Byte} {c : Host.Cell} :
    c ∈ mem.insert a v ↔ c = (a, v) ∨ c ∈ mem := by
  induction mem with
  | nil => simp [Memory.insert]
  | cons d rest ih =>
    obtain ⟨k, w⟩ := d
    unfold Memory.insert
    split
    · simp
    · simp [ih, or_left_comm]

theorem Memory.insert_rises {mem : Memory} {a : Nat} (v : Byte)
    (h : mem.Pairwise fun c d => c.1 < d.1) (ha : ∀ c ∈ mem, c.1 ≠ a) :
    (mem.insert a v).Pairwise fun c d => c.1 < d.1 := by
  induction mem with
  | nil => simp [Memory.insert]
  | cons d rest ih =>
    obtain ⟨k, w⟩ := d
    have hk : k ≠ a := ha _ List.mem_cons_self
    obtain ⟨hhead, htail⟩ := List.pairwise_cons.mp h
    unfold Memory.insert
    split
    · next hlt =>
      refine List.pairwise_cons.mpr ⟨fun c hc => ?_, h⟩
      rcases List.mem_cons.mp hc with rfl | hc
      · exact hlt
      · exact Nat.lt_trans hlt (hhead c hc)
    · next hge =>
      refine List.pairwise_cons.mpr
        ⟨fun c hc => ?_, ih htail fun c hc => ha c (List.mem_cons_of_mem _ hc)⟩
      rcases Memory.mem_insert.mp hc with rfl | hc
      · have : k < a := by omega
        exact this
      · exact hhead c hc

theorem Memory.wf_nil : Memory.wf [] := ⟨List.Pairwise.nil, by simp⟩

theorem Memory.erase_wf {mem : Memory} (a : Nat) (h : mem.wf) : (mem.erase a).wf :=
  ⟨h.1.filter _, fun c hc => h.2 c (Memory.mem_erase.mp hc).1⟩

/-- A write inside the bank keeps the canonical form. -/
theorem Memory.write_wf {mem : Memory} {a : Nat} (v : Byte) (h : mem.wf)
    (ha : a < Config.bankSize) : (mem.write a v).wf := by
  unfold Memory.write
  split
  · exact Memory.erase_wf a h
  · next hv =>
    have he := Memory.erase_wf a h
    refine ⟨Memory.insert_rises v he.1 fun c hc => (Memory.mem_erase.mp hc).2, fun c hc => ?_⟩
    rcases Memory.mem_insert.mp hc with rfl | hc
    · exact ⟨ha, hv⟩
    · exact he.2 c hc

theorem Memory.mem_image {start : Nat} {bs : List Byte} {c : Host.Cell}
    (h : c ∈ Memory.image start bs) : start ≤ c.1 ∧ c.1 < start + bs.length ∧ c.2 ≠ 0 := by
  induction bs generalizing start with
  | nil => simp [Memory.image] at h
  | cons b bs ih =>
    unfold Memory.image at h
    simp only [List.length_cons]
    split at h
    · obtain ⟨h1, h2, h3⟩ := ih h
      exact ⟨by omega, by omega, h3⟩
    · next hb =>
      rcases List.mem_cons.mp h with rfl | h
      · refine ⟨Nat.le_refl _, ?_, hb⟩
        show start < _
        omega
      · obtain ⟨h1, h2, h3⟩ := ih h
        exact ⟨by omega, by omega, h3⟩

/-- An image of at most a bank's size is canonical. -/
theorem Memory.image_wf (start : Nat) (bs : List Byte) (h : start + bs.length ≤ Config.bankSize) :
    (Memory.image start bs).wf := by
  refine ⟨?_, fun c hc => ⟨by have := Memory.mem_image hc; omega, (Memory.mem_image hc).2.2⟩⟩
  clear h
  induction bs generalizing start with
  | nil => simp [Memory.image]
  | cons b bs ih =>
    unfold Memory.image
    split
    · exact ih _
    · refine List.pairwise_cons.mpr ⟨fun c hc => ?_, ih _⟩
      have := Memory.mem_image hc
      show start < c.1
      omega

/-- What an image reads as: its bytes from `start` on, 0 elsewhere. -/
theorem Memory.read_image (start : Nat) (bs : List Byte) (addr : Nat) :
    (Memory.image start bs).read addr
      = if start ≤ addr then bs.getD (addr - start) 0 else 0 := by
  induction bs generalizing start with
  | nil => simp [Memory.image]
  | cons b bs ih =>
    have hcons : Memory.read (Memory.image start (b :: bs)) addr
        = if start = addr then b else Memory.read (Memory.image (start + 1) bs) addr := by
      rw [Memory.image]
      by_cases hb : b = 0
      · rw [if_pos hb]
        by_cases hs : start = addr
        · subst hs
          rw [if_pos rfl, hb]
          exact Memory.read_eq_zero fun c hc => by have := (Memory.mem_image hc).1; omega
        · rw [if_neg hs]
      · rw [if_neg hb, Memory.read_cons]
    rw [hcons, ih]
    by_cases hs : start = addr
    · subst hs; simp
    · by_cases hle : start ≤ addr
      · have h1 : start + 1 ≤ addr := by omega
        have h2 : addr - start = (addr - (start + 1)) + 1 := by omega
        simp [hs, hle, h1, h2]
      · have h1 : ¬ start + 1 ≤ addr := by omega
        simp [hs, hle, h1]

/-! ### Bytes of a bank through the state -/

theorem State.byteAt_setCells (s : State) (b b' : Bank) (mem : Memory) (addr : Nat) :
    (s.setCells b mem).byteAt b' addr = if b' = b then mem.read addr else s.byteAt b' addr := by
  simp only [State.byteAt, State.cells_setCells]
  split <;> rfl

@[simp] theorem State.byteAt_warnRomWrite (s : State) (b b' : Bank) (addr addr' : Nat) (v : Byte) :
    (s.warnRomWrite b addr v).byteAt b' addr' = s.byteAt b' addr' :=
  State.byteAt_congr _ _ (by simp) (by simp) _ _

end Sys2Proof.Machine
end

