-- ==== Sys2Proof/Laws/Ops.lean ====
section
/-! SUPPORT. One lemma for each shared operation that says everything it can do, so that a proof about a
meaning cites it instead of unfolding the operation. -/

namespace Sys2Proof.Machine

/-! ### Sequencing and the fault boundary -/

@[simp] theorem ok_bind {ε α β : Type} (a : α) (f : α → Except ε β) :
    (Except.ok a >>= f) = f a := rfl

@[simp] theorem error_bind {ε α β : Type} (e : ε) (f : α → Except ε β) :
    ((Except.error e : Except ε α) >>= f) = Except.error e := rfl

@[simp] theorem boundary_ok (s s' : State) : boundary s (.ok s') = .next s' := rfl

@[simp] theorem boundary_error (s : State) (c : Cause) :
    boundary s (.error c) = .next (s.raise c) := rfl

/-- A boundary always answers a next state: the effect's, or the fault taken in `s`. -/
theorem boundary_eq_next {s t : State} {effect : Except Cause State} :
    boundary s effect = .next t ↔
      effect = .ok t ∨ ∃ c, effect = .error c ∧ t = s.raise c := by
  cases effect <;> simp [eq_comm]

/-! ### Operand checks -/

theorem regIndex_ok {f : RegField} {n : Nibble} {i : Fin 8} :
    regIndex f n = .ok i ↔ n.toNat = i.val := by
  unfold regIndex
  split
  · simp [Fin.ext_iff]
  · next h =>
    simp only [reduceCtorEq, false_iff]
    have := i.isLt
    omega

theorem regIndex_error {f : RegField} {n : Nibble} {c : Cause} :
    regIndex f n = .error c ↔ 8 ≤ n.toNat ∧ c = .registerIndexOutOfRange f n := by
  unfold regIndex
  split
  · next h =>
    simp only [reduceCtorEq, false_iff, not_and]
    omega
  · next h => simp [eq_comm, Nat.le_of_not_lt h]

@[simp] theorem regNo_toNat (i : Fin 8) : (regNo i).toNat = i.val := by
  simp only [regNo, BitVec.toNat_ofNat]
  have := i.isLt
  omega

@[simp] theorem regIndex_regNo (f : RegField) (i : Fin 8) : regIndex f (regNo i) = .ok i :=
  regIndex_ok.mpr (regNo_toNat i)

/-- A nibble below 8 is the field that names a register. -/
theorem eq_regNo {n : Nibble} {i : Fin 8} (h : n.toNat = i.val) : n = regNo i :=
  BitVec.eq_of_toNat_eq (by simp [h])

theorem jumpTarget_even {addr12 : Addr} (h : addr12.toNat % 2 = 0) :
    jumpTarget addr12 = .ok (addr12.setWidth 13) := by
  simp [jumpTarget, h]

theorem jumpTarget_odd {addr12 : Addr} (h : addr12.toNat % 2 = 1) :
    jumpTarget addr12 = .error (.oddJumpTarget addr12) := by
  simp [jumpTarget, h]

theorem hexDigit_ok {v : Byte} (h : v.toNat ≤ 15) : hexDigit v = .ok v := by
  simp [hexDigit, h]

theorem hexDigit_error {v : Byte} (h : 15 < v.toNat) : hexDigit v = .error (.invalidDigit v) := by
  simp [hexDigit, h]

theorem drawPlace_ok {c : Byte} (row col : Fin 8) (h : c.toNat ≤ 0x7F) :
    drawPlace c (regNo row) (regNo col) = .ok (row, col) := by
  simp [drawPlace, h]

theorem drawPlace_error {c : Byte} {row col : Nibble}
    (h : 0x7F < c.toNat ∨ 8 ≤ row.toNat ∨ 8 ≤ col.toNat) :
    drawPlace c row col = .error (.invalidDrawParameters c row col) := by
  rw [drawPlace, dif_neg]
  omega

theorem bcdBounds_ok {s : State} (h : s.a.toNat ≤ 4093) : bcdBounds s = .ok () := by
  rw [bcdBounds, if_neg]
  simp only [State.dataAddress]
  omega

/-- Past 4093 the first of A+1, A+2 that leaves the bank is 4096. -/
theorem bcdBounds_error {s : State} (h : 4094 ≤ s.a.toNat) :
    bcdBounds s = .error (.outOfBoundsData s.m 4096) := by
  have := s.a.isLt
  have h1 : 4095 < s.a.toNat + 2 := by omega
  have h2 : (if s.a.toNat + 1 > 4095 then s.a.toNat + 1 else s.a.toNat + 2) = 4096 := by
    split <;> omega
  simp only [bcdBounds, State.dataAddress, gt_iff_lt, if_pos h1]
  simp only [gt_iff_lt] at h2
  rw [h2]

/-! ### The memory component -/

theorem bankRead_ok {b : Bank} {addr : Nat} (s : State) (h : addr < Config.bankSize) :
    bankRead b addr s = .ok (s.byteAt b addr) := by
  simp [bankRead, h]

theorem bankRead_error {b : Bank} {addr : Nat} (s : State) (h : Config.bankSize ≤ addr) :
    bankRead b addr s = .error (.outOfBoundsData b addr) := by
  simp [bankRead, Nat.not_lt.mpr h]

/-- The state a byte written to a bank leaves. -/
theorem bankWrite_ok {b : Bank} {addr : Nat} {v : Byte} (s : State) (h : addr < Config.bankSize) :
    bankWrite b addr v s
      = .ok ((s.setCells b ((s.cells b).write addr v)).warnRomWrite b addr v) := by
  simp [bankWrite, h]

theorem bankWrite_error {b : Bank} {addr : Nat} {v : Byte} (s : State)
    (h : Config.bankSize ≤ addr) : bankWrite b addr v s = .error (.outOfBoundsData b addr) := by
  simp [bankWrite, Nat.not_lt.mpr h]

/-- The bytes a bank write leaves: the one written, and all others as before. -/
theorem byteAt_bankWrite {b b' : Bank} {addr addr' : Nat} {v : Byte} (s : State) :
    ((s.setCells b ((s.cells b).write addr v)).warnRomWrite b addr v).byteAt b' addr'
      = if b' = b ∧ addr' = addr then v else s.byteAt b' addr' := by
  simp only [State.byteAt_warnRomWrite, State.byteAt_setCells]
  by_cases hb : b' = b
  · subst hb; simp [Memory.read_write, State.byteAt]
  · simp [hb]

theorem dataAddress_lt (s : State) : s.dataAddress < Config.bankSize := s.a.isLt

/-! ### How a step ends -/

/-- Taking a fault is what the claims call `FaultedWith`. -/
theorem faultedWith_raise (s : State) (c : Cause) : FaultedWith c s (s.raise c) := by
  refine ⟨rfl, rfl, fun p hp => ?_⟩
  cases p <;> first | rfl | simp at hp

end Sys2Proof.Machine
end

