-- ==== Sys2Proof/Laws/Timer.lean ====
section
/-! SUPPORT. The ticks that fall before a move are that many single ticks, and ticks keep coming. -/

namespace Sys2Proof.Machine

theorem ticksCount_toNat (t : Byte) (n : Nat) : (ticksCount t n).toNat = t.toNat - n := by
  unfold ticksCount
  split
  · next h => simp [h]
  · have := t.isLt
    simp only [BitVec.toNat_ofNat]
    omega

theorem tickCount_toNat (t : Byte) : (tickCount t).toNat = t.toNat - 1 := by
  unfold tickCount
  split
  · next h => simp [h]
  · next h =>
    have h1 : t.toNat ≠ 0 := fun h0 => h (BitVec.eq_of_toNat_eq (by simpa using h0))
    have h2 := t.isLt
    rw [BitVec.toNat_sub]
    show (2 ^ 8 - 1 + t.toNat) % 2 ^ 8 = t.toNat - 1
    omega

theorem ticksCount_zero (t : Byte) : ticksCount t 0 = t :=
  BitVec.eq_of_toNat_eq (by simp [ticksCount_toNat])

theorem ticksCount_succ (t : Byte) (n : Nat) : ticksCount t (n + 1) = ticksCount (tickCount t) n :=
  BitVec.eq_of_toNat_eq (by simp only [ticksCount_toNat, tickCount_toNat]; omega)

/-- While Stopped no time passes for the timer. -/
theorem elapse_stopped {s : State} (h : s.rs = .stopped) : s.elapse = s := by
  unfold State.elapse; rw [h]

/-- While Running the free number of ticks falls and one more draw is counted. -/
theorem elapse_running {s : State} (h : s.rs = .running) :
    s.elapse = (s.setTimer (ticksCount s.t (ticksBefore s.tickDraws))).countTickDraw := by
  unfold State.elapse; rw [h]

/-- At the move the free value names, one tick is forced. -/
theorem ticksBefore_forced (k : Nat) : 0 < ticksBefore (k + Config.tickWait k) := by
  have h : (List.range (k + Config.tickWait k + 1)).any
      (fun j => j + Config.tickWait j == k + Config.tickWait k) = true := by
    refine List.any_eq_true.mpr ⟨k, by simp, by simp⟩
  unfold ticksBefore
  rw [if_pos h]
  omega

end Sys2Proof.Machine
end

