-- ==== Sys2Proof/Laws/Exec.lean ====
section
/-! SUPPORT. For each instruction, every way its meaning can answer, as one equivalence: its effect on the
operands that are legal, or the fault it takes. Proofs about instructions cite these. -/

namespace Sys2Proof.Machine

/-- A register field names a register, or it is out of range: nothing else. -/
theorem regIndex_cases (f : RegField) (n : Nibble) :
    (∃ i, n = regNo i ∧ regIndex f n = .ok i) ∨
      (8 ≤ n.toNat ∧ regIndex f n = .error (.registerIndexOutOfRange f n)) := by
  by_cases h : n.toNat < 8
  · exact .inl ⟨⟨n.toNat, h⟩, eq_regNo rfl, regIndex_ok.mpr rfl⟩
  · exact .inr ⟨by omega, regIndex_error.mpr ⟨by omega, rfl⟩⟩

@[simp] theorem regNo_inj {i j : Fin 8} : regNo i = regNo j ↔ i = j := by
  refine ⟨fun h => ?_, fun h => h ▸ rfl⟩
  have := congrArg BitVec.toNat h
  simpa [Fin.ext_iff] using this

/-- A field that names a register is below 8. -/
theorem regNo_lt (i : Fin 8) : ¬ 8 ≤ (regNo i).toNat := by
  have := i.isLt
  simp

theorem regIndex_out {f : RegField} {n : Nibble} (h : 8 ≤ n.toNat) :
    regIndex f n = .error (.registerIndexOutOfRange f n) := regIndex_error.mpr ⟨h, rfl⟩

/-! ### What a legal form does -/

variable (s : State) (i j k : Fin 8)

theorem exec_halt : exec .halt s = .next ((s.emit (.halt s.pc)).stop) := rfl

theorem exec_store (imm8 : Byte) :
    exec (.store (regNo i) imm8) s = .next (s.setReg i imm8).advance := by
  simp [exec, execStore]

theorem exec_add :
    exec (.add (regNo i) (regNo j) (regNo k)) s
      = .next (s.setReg k (addWrap (s.reg i) (s.reg j))).advance := by
  simp [exec, execAdd, arith3]

theorem exec_sub :
    exec (.sub (regNo i) (regNo j) (regNo k)) s
      = .next (s.setReg k (subWrap (s.reg i) (s.reg j))).advance := by
  simp [exec, execSub, arith3]

theorem exec_read :
    exec (.read (regNo i)) s = .next (s.setReg i (s.byteAt s.m s.dataAddress)).advance := by
  simp [exec, execRead, memRead, bankRead_ok s (dataAddress_lt s)]

/-- The state one byte written to the selected bank leaves. -/
def State.stored (s : State) (addr : Nat) (v : Byte) : State :=
  (s.setCells s.m ((s.cells s.m).write addr v)).warnRomWrite s.m addr v

theorem memWrite_ok {addr : Nat} (v : Byte) (h : addr < Config.bankSize) :
    memWrite addr v s = .ok (s.stored addr v) := bankWrite_ok s h

/-! ### What a store leaves, field by field and byte by byte -/

@[simp] theorem State.stored_x (s : State) (addr : Nat) (v : Byte) :
    (s.stored addr v).x = s.x := by
  simp [State.stored]
@[simp] theorem State.stored_pc (s : State) (addr : Nat) (v : Byte) :
    (s.stored addr v).pc = s.pc := by
  simp [State.stored]
@[simp] theorem State.stored_a (s : State) (addr : Nat) (v : Byte) :
    (s.stored addr v).a = s.a := by
  simp [State.stored]
@[simp] theorem State.stored_m (s : State) (addr : Nat) (v : Byte) :
    (s.stored addr v).m = s.m := by
  simp [State.stored]
@[simp] theorem State.stored_t (s : State) (addr : Nat) (v : Byte) :
    (s.stored addr v).t = s.t := by
  simp [State.stored]
@[simp] theorem State.stored_rs (s : State) (addr : Nat) (v : Byte) :
    (s.stored addr v).rs = s.rs := by
  simp [State.stored]
@[simp] theorem State.stored_screen (s : State) (addr : Nat) (v : Byte) :
    (s.stored addr v).screen = s.screen := by
  simp [State.stored]
@[simp] theorem State.stored_displayCalls (s : State) (addr : Nat) (v : Byte) :
    (s.stored addr v).displayCalls = s.displayCalls := by
  simp [State.stored]
@[simp] theorem State.stored_replies (s : State) (addr : Nat) (v : Byte) :
    (s.stored addr v).replies = s.replies := by
  simp [State.stored]
@[simp] theorem State.stored_keyReads (s : State) (addr : Nat) (v : Byte) :
    (s.stored addr v).keyReads = s.keyReads := by
  simp [State.stored]
@[simp] theorem State.stored_tickDraws (s : State) (addr : Nat) (v : Byte) :
    (s.stored addr v).tickDraws = s.tickDraws := by
  simp [State.stored]
@[simp] theorem State.stored_agenda (s : State) (addr : Nat) (v : Byte) :
    (s.stored addr v).agenda = s.agenda := by
  simp [State.stored]
@[simp] theorem State.stored_hostStepped (s : State) (addr : Nat) (v : Byte) :
    (s.stored addr v).hostStepped = s.hostStepped := by
  simp [State.stored]
@[simp] theorem State.stored_diags (s : State) (addr : Nat) (v : Byte) :
    (s.stored addr v).diags = s.diags ++ if s.m = .rom then [.romWrite addr v] else [] := by
  simp [State.stored]
@[simp] theorem State.reg_stored (s : State) (addr : Nat) (v : Byte) (i : Fin 8) :
    (s.stored addr v).reg i = s.reg i := State.reg_congr _ _ (by simp) i

/-- A store sets the byte at its address in the bank M selects, and no other. -/
theorem State.byteAt_stored (s : State) (addr : Nat) (v : Byte) (b : Bank) (addr' : Nat) :
    (s.stored addr v).byteAt b addr' = if b = s.m ∧ addr' = addr then v else s.byteAt b addr' :=
  byteAt_bankWrite s

/-- A store inside the bank keeps both banks canonical. -/
theorem State.stored_wf {s : State} {addr : Nat} (v : Byte) (h : addr < Config.bankSize)
    (hrom : s.rom.wf) (hram : s.ram.wf) :
    (s.stored addr v).rom.wf ∧ (s.stored addr v).ram.wf := by
  unfold State.stored
  simp only [State.warnRomWrite_rom, State.warnRomWrite_ram]
  cases hm : s.m
  · exact ⟨hrom, Memory.write_wf v hram h⟩
  · exact ⟨Memory.write_wf v hrom h, hram⟩

theorem exec_write :
    exec (.write (regNo i)) s = .next (s.stored s.dataAddress (s.reg i)).advance := by
  simp [exec, execWrite, memWrite_ok s _ (dataAddress_lt s)]

theorem exec_jump {addr12 : Addr} (h : addr12.toNat % 2 = 0) :
    exec (.jump addr12) s = .next (s.setPc (addr12.setWidth 13)) := by
  simp [exec, execJump, jumpTarget_even h]

theorem exec_readKeyboard :
    exec (.readKeyboard (regNo i)) s
      = .next ((s.setReg i s.keyAnswer).countKeyRead).advance := by
  simp [exec, execReadKeyboard]

theorem exec_switchMemory : exec .switchMemory s = .next (s.setBank s.m.other).advance := rfl

theorem exec_skipEq :
    exec (.skipEq (regNo i) (regNo j)) s
      = .next (if s.reg i = s.reg j then s.skip else s.advance) := by
  simp [exec, execSkipEq, skipIf]

theorem exec_skipNeq :
    exec (.skipNeq (regNo i) (regNo j)) s
      = .next (if s.reg i ≠ s.reg j then s.skip else s.advance) := by
  simp [exec, execSkipNeq, skipIf]

theorem exec_setAddress (addr12 : Addr) :
    exec (.setAddress addr12) s = .next (s.setAddr addr12).advance := rfl

theorem exec_setTimer (val8 : Byte) :
    exec (.setTimer val8) s = .next (s.setTimer val8).advance := rfl

theorem exec_readTimer : exec (.readTimer (regNo i)) s = .next (s.setReg i s.t).advance := by
  simp [exec, execReadTimer]

/-- The state the three digits of a byte leave. -/
def State.storedDigits (s : State) (v : Byte) : State :=
  ((s.stored s.dataAddress (hundreds v)).stored (s.dataAddress + 1) (tens v)).stored
    (s.dataAddress + 2) (ones v)

/-! ### What the three digits of BCD leave -/

@[simp] theorem State.storedDigits_x (s : State) (v : Byte) :
    (s.storedDigits v).x = s.x := by
  simp [State.storedDigits]
@[simp] theorem State.storedDigits_pc (s : State) (v : Byte) :
    (s.storedDigits v).pc = s.pc := by
  simp [State.storedDigits]
@[simp] theorem State.storedDigits_a (s : State) (v : Byte) :
    (s.storedDigits v).a = s.a := by
  simp [State.storedDigits]
@[simp] theorem State.storedDigits_m (s : State) (v : Byte) :
    (s.storedDigits v).m = s.m := by
  simp [State.storedDigits]
@[simp] theorem State.storedDigits_t (s : State) (v : Byte) :
    (s.storedDigits v).t = s.t := by
  simp [State.storedDigits]
@[simp] theorem State.storedDigits_rs (s : State) (v : Byte) :
    (s.storedDigits v).rs = s.rs := by
  simp [State.storedDigits]
@[simp] theorem State.storedDigits_screen (s : State) (v : Byte) :
    (s.storedDigits v).screen = s.screen := by
  simp [State.storedDigits]
@[simp] theorem State.storedDigits_displayCalls (s : State) (v : Byte) :
    (s.storedDigits v).displayCalls = s.displayCalls := by
  simp [State.storedDigits]
@[simp] theorem State.storedDigits_replies (s : State) (v : Byte) :
    (s.storedDigits v).replies = s.replies := by
  simp [State.storedDigits]
@[simp] theorem State.storedDigits_keyReads (s : State) (v : Byte) :
    (s.storedDigits v).keyReads = s.keyReads := by
  simp [State.storedDigits]
@[simp] theorem State.storedDigits_tickDraws (s : State) (v : Byte) :
    (s.storedDigits v).tickDraws = s.tickDraws := by
  simp [State.storedDigits]
@[simp] theorem State.storedDigits_agenda (s : State) (v : Byte) :
    (s.storedDigits v).agenda = s.agenda := by
  simp [State.storedDigits]
@[simp] theorem State.storedDigits_hostStepped (s : State) (v : Byte) :
    (s.storedDigits v).hostStepped = s.hostStepped := by
  simp [State.storedDigits]
@[simp] theorem State.storedDigits_diags (s : State) (v : Byte) :
    (s.storedDigits v).diags = s.diags ++ if s.m = .rom then
      [.romWrite s.dataAddress (hundreds v), .romWrite (s.dataAddress + 1) (tens v),
        .romWrite (s.dataAddress + 2) (ones v)] else [] := by
  by_cases h : s.m = .rom <;> simp [State.storedDigits, h]
@[simp] theorem State.reg_storedDigits (s : State) (v : Byte) (i : Fin 8) :
    (s.storedDigits v).reg i = s.reg i := State.reg_congr _ _ (by simp) i

/-- The digits stand at A, A+1, A+2 of the bank M selects; every other byte is as before. -/
theorem State.byteAt_storedDigits (s : State) (v : Byte) (b : Bank) (addr : Nat) :
    (s.storedDigits v).byteAt b addr =
      if b = s.m ∧ addr = s.dataAddress then hundreds v
      else if b = s.m ∧ addr = s.dataAddress + 1 then tens v
      else if b = s.m ∧ addr = s.dataAddress + 2 then ones v
      else s.byteAt b addr := by
  simp only [State.storedDigits, State.byteAt_stored, State.stored_m]
  by_cases hb : b = s.m
  · simp only [hb, true_and]
    split_ifs <;> first | rfl | omega
  · simp [hb]

theorem exec_bcd (h : s.a.toNat ≤ 4093) :
    exec (.bcd (regNo i)) s = .next (s.storedDigits (s.reg i)).advance := by
  have h0 : s.dataAddress < Config.bankSize := dataAddress_lt s
  have h1 : s.dataAddress + 1 < Config.bankSize := by
    simp only [State.dataAddress, Config.bankSize]; omega
  have h2 : s.dataAddress + 2 < Config.bankSize := by
    simp only [State.dataAddress, Config.bankSize]; omega
  simp [exec, execBcd, bcdBounds_ok h, memWrite_ok _ _ h0, memWrite_ok _ _ h1, memWrite_ok _ _ h2,
    State.storedDigits]

theorem exec_toAscii (h : (s.reg i).toNat ≤ 15) :
    exec (.toAscii (regNo i) (regNo j)) s
      = .next (s.setReg j (asciiDigit (s.reg i))).advance := by
  simp [exec, execToAscii, hexDigit_ok h]

theorem exec_draw (h : (s.reg i).toNat ≤ 0x7F) :
    exec (.draw (regNo i) (regNo j) (regNo k)) s
      = .next ((s.displaySet k j (s.reg i)).displayRender).advance := by
  simp [exec, execDraw, drawPlace_ok j k h]

/-! ### The faults -/

theorem exec_jump_odd {addr12 : Addr} (h : addr12.toNat % 2 = 1) :
    exec (.jump addr12) s = .next (s.raise (.oddJumpTarget addr12)) := by
  simp [exec, execJump, jumpTarget_odd h]

theorem exec_bcd_out (h : 4094 ≤ s.a.toNat) :
    exec (.bcd (regNo i)) s = .next (s.raise (.outOfBoundsData s.m 4096)) := by
  simp [exec, execBcd, bcdBounds_error h]

theorem exec_toAscii_out (h : 15 < (s.reg i).toNat) :
    exec (.toAscii (regNo i) (regNo j)) s = .next (s.raise (.invalidDigit (s.reg i))) := by
  simp [exec, execToAscii, hexDigit_error h]

theorem exec_draw_out {row col : Nibble}
    (h : 0x7F < (s.reg i).toNat ∨ 8 ≤ row.toNat ∨ 8 ≤ col.toNat) :
    exec (.draw (regNo i) row col) s
      = .next (s.raise (.invalidDrawParameters (s.reg i) row col)) := by
  simp [exec, execDraw, drawPlace_error h]

/-- The first register field an instruction uses that holds 8..15. -/
def firstBadField (i : Instr) : Option (RegField × Nibble) :=
  (registerFields i).find? (fun p => 8 ≤ p.2.toNat)

/-- With a register field above 7 an instruction faults on the first such field. -/
theorem exec_badField {ins : Instr} {f : RegField} {n : Nibble}
    (h : firstBadField ins = some (f, n)) :
    exec ins s = .next (s.raise (.registerIndexOutOfRange f n)) := by
  cases ins <;> simp only [firstBadField, registerFields, List.find?_nil, reduceCtorEq] at h
  case add rX rY rZ =>
    rcases regIndex_cases .rX rX with ⟨i, rfl, h1⟩ | ⟨h1, h2⟩ <;>
    rcases regIndex_cases .rY rY with ⟨j, rfl, h3⟩ | ⟨h3, h4⟩ <;>
    rcases regIndex_cases .rZ rZ with ⟨k, rfl, h5⟩ | ⟨h5, h6⟩ <;>
    simp_all [exec, execAdd, arith3, regIndex_out]
  case sub rX rY rZ =>
    rcases regIndex_cases .rX rX with ⟨i, rfl, h1⟩ | ⟨h1, h2⟩ <;>
    rcases regIndex_cases .rY rY with ⟨j, rfl, h3⟩ | ⟨h3, h4⟩ <;>
    rcases regIndex_cases .rZ rZ with ⟨k, rfl, h5⟩ | ⟨h5, h6⟩ <;>
    simp_all [exec, execSub, arith3, regIndex_out]
  case skipEq rX rY =>
    rcases regIndex_cases .rX rX with ⟨i, rfl, h1⟩ | ⟨h1, h2⟩ <;>
    rcases regIndex_cases .rY rY with ⟨j, rfl, h3⟩ | ⟨h3, h4⟩ <;>
    simp_all [exec, execSkipEq, skipIf, regIndex_out]
  case skipNeq rX rY =>
    rcases regIndex_cases .rX rX with ⟨i, rfl, h1⟩ | ⟨h1, h2⟩ <;>
    rcases regIndex_cases .rY rY with ⟨j, rfl, h3⟩ | ⟨h3, h4⟩ <;>
    simp_all [exec, execSkipNeq, skipIf, regIndex_out]
  case toAscii rX rY =>
    rcases regIndex_cases .rX rX with ⟨i, rfl, h1⟩ | ⟨h1, h2⟩ <;>
    rcases regIndex_cases .rY rY with ⟨j, rfl, h3⟩ | ⟨h3, h4⟩ <;>
    simp_all [exec, execToAscii, regIndex_out]
  case store rX imm8 =>
    rcases regIndex_cases .rX rX with ⟨i, rfl, h1⟩ | ⟨h1, h2⟩ <;>
    simp_all [exec, execStore, regIndex_out]
  case draw rX row col =>
    rcases regIndex_cases .rX rX with ⟨i, rfl, h1⟩ | ⟨h1, h2⟩ <;>
    simp_all [exec, execDraw, regIndex_out]
  all_goals
    rename_i rX
    rcases regIndex_cases .rX rX with ⟨i, rfl, h1⟩ | ⟨h1, h2⟩ <;>
    simp_all [exec, execRead, execWrite, execReadKeyboard, execReadTimer, execBcd,
      regIndex_out]

/-! ### The one inversion lemma -/

/-- `ins` completes in `s` and leaves `t`: its own effect on legal operands. -/
inductive Completes (s : State) : Instr → State → Prop where
  | halt : Completes s .halt ((s.emit (.halt s.pc)).stop)
  | store (i : Fin 8) (v : Byte) : Completes s (.store (regNo i) v) (s.setReg i v).advance
  | add (i j k : Fin 8) : Completes s (.add (regNo i) (regNo j) (regNo k))
      (s.setReg k (addWrap (s.reg i) (s.reg j))).advance
  | sub (i j k : Fin 8) : Completes s (.sub (regNo i) (regNo j) (regNo k))
      (s.setReg k (subWrap (s.reg i) (s.reg j))).advance
  | read (i : Fin 8) : Completes s (.read (regNo i))
      (s.setReg i (s.byteAt s.m s.dataAddress)).advance
  | write (i : Fin 8) : Completes s (.write (regNo i)) (s.stored s.dataAddress (s.reg i)).advance
  | jump (addr12 : Addr) (h : addr12.toNat % 2 = 0) :
      Completes s (.jump addr12) (s.setPc (addr12.setWidth 13))
  | readKeyboard (i : Fin 8) : Completes s (.readKeyboard (regNo i))
      ((s.setReg i s.keyAnswer).countKeyRead).advance
  | switchMemory : Completes s .switchMemory (s.setBank s.m.other).advance
  | skipEq (i j : Fin 8) : Completes s (.skipEq (regNo i) (regNo j))
      (if s.reg i = s.reg j then s.skip else s.advance)
  | skipNeq (i j : Fin 8) : Completes s (.skipNeq (regNo i) (regNo j))
      (if s.reg i ≠ s.reg j then s.skip else s.advance)
  | setAddress (addr12 : Addr) : Completes s (.setAddress addr12) (s.setAddr addr12).advance
  | setTimer (v : Byte) : Completes s (.setTimer v) (s.setTimer v).advance
  | readTimer (i : Fin 8) : Completes s (.readTimer (regNo i)) (s.setReg i s.t).advance
  | bcd (i : Fin 8) (h : s.a.toNat ≤ 4093) :
      Completes s (.bcd (regNo i)) (s.storedDigits (s.reg i)).advance
  | toAscii (i j : Fin 8) (h : (s.reg i).toNat ≤ 15) :
      Completes s (.toAscii (regNo i) (regNo j)) (s.setReg j (asciiDigit (s.reg i))).advance
  | draw (i j k : Fin 8) (h : (s.reg i).toNat ≤ 0x7F) :
      Completes s (.draw (regNo i) (regNo j) (regNo k))
        ((s.displaySet k j (s.reg i)).displayRender).advance

/-- `ins` faults in `s` with this cause. -/
inductive FaultsBy (s : State) : Instr → Cause → Prop where
  | badField {ins : Instr} {f : RegField} {n : Nibble} (h : firstBadField ins = some (f, n)) :
      FaultsBy s ins (.registerIndexOutOfRange f n)
  | oddJump (addr12 : Addr) (h : addr12.toNat % 2 = 1) :
      FaultsBy s (.jump addr12) (.oddJumpTarget addr12)
  | bcd (i : Fin 8) (h : 4094 ≤ s.a.toNat) :
      FaultsBy s (.bcd (regNo i)) (.outOfBoundsData s.m 4096)
  | digit (i j : Fin 8) (h : 15 < (s.reg i).toNat) :
      FaultsBy s (.toAscii (regNo i) (regNo j)) (.invalidDigit (s.reg i))
  | draw (i : Fin 8) (row col : Nibble)
      (h : 0x7F < (s.reg i).toNat ∨ 8 ≤ row.toNat ∨ 8 ≤ col.toNat) :
      FaultsBy s (.draw (regNo i) row col) (.invalidDrawParameters (s.reg i) row col)

variable {s}

theorem exec_of_completes {ins : Instr} {t : State} (h : Completes s ins t) :
    exec ins s = .next t := by
  cases h with
  | halt => exact exec_halt s
  | store i v => exact exec_store s i v
  | add i j k => exact exec_add s i j k
  | sub i j k => exact exec_sub s i j k
  | read i => exact exec_read s i
  | write i => exact exec_write s i
  | jump a h => exact exec_jump s h
  | readKeyboard i => exact exec_readKeyboard s i
  | switchMemory => exact exec_switchMemory s
  | skipEq i j => exact exec_skipEq s i j
  | skipNeq i j => exact exec_skipNeq s i j
  | setAddress a => exact exec_setAddress s a
  | setTimer v => exact exec_setTimer s v
  | readTimer i => exact exec_readTimer s i
  | bcd i h => exact exec_bcd s i h
  | toAscii i j h => exact exec_toAscii s i j h
  | draw i j k h => exact exec_draw s i j k h

theorem exec_of_faultsBy {ins : Instr} {c : Cause} (h : FaultsBy s ins c) :
    exec ins s = .next (s.raise c) := by
  cases h with
  | badField h => exact exec_badField s h
  | oddJump a h => exact exec_jump_odd s h
  | bcd i h => exact exec_bcd_out s i h
  | digit i j h => exact exec_toAscii_out s i j h
  | draw i row col h => exact exec_draw_out s i h

/-- An instruction either has a bad register field or all its register fields name registers. -/
theorem firstBadField_none {ins : Instr} :
    firstBadField ins = none ↔ ∀ p ∈ registerFields ins, ∃ i, p.2 = regNo i := by
  unfold firstBadField
  rw [List.find?_eq_none]
  refine forall₂_congr fun p _ => ?_
  rcases regIndex_cases p.1 p.2 with ⟨i, hi, _⟩ | ⟨h, _⟩
  · simp [hi]
  · simp only [h, decide_true, not_true, false_iff, not_exists]
    intro i hi
    exact regNo_lt i (hi ▸ h)

/-- EVERY WAY `exec` CAN ANSWER: the instruction completes, or it faults. -/
theorem exec_total (ins : Instr) (s : State) :
    (∃ t, Completes s ins t) ∨ ∃ c, FaultsBy s ins c := by
  rcases hbad : firstBadField ins with _ | ⟨f, n⟩
  · rw [firstBadField_none] at hbad
    cases ins <;> simp only [registerFields, List.mem_cons, List.not_mem_nil, or_false,
      forall_eq_or_imp, forall_eq] at hbad
    case halt => exact .inl ⟨_, .halt⟩
    case store rX v => obtain ⟨i, rfl⟩ := hbad; exact .inl ⟨_, .store i v⟩
    case add => obtain ⟨⟨i, rfl⟩, ⟨j, rfl⟩, ⟨k, rfl⟩⟩ := hbad; exact .inl ⟨_, .add i j k⟩
    case sub => obtain ⟨⟨i, rfl⟩, ⟨j, rfl⟩, ⟨k, rfl⟩⟩ := hbad; exact .inl ⟨_, .sub i j k⟩
    case read => obtain ⟨i, rfl⟩ := hbad; exact .inl ⟨_, .read i⟩
    case write => obtain ⟨i, rfl⟩ := hbad; exact .inl ⟨_, .write i⟩
    case jump a =>
      rcases Nat.mod_two_eq_zero_or_one a.toNat with h | h
      · exact .inl ⟨_, .jump a h⟩
      · exact .inr ⟨_, .oddJump a h⟩
    case readKeyboard => obtain ⟨i, rfl⟩ := hbad; exact .inl ⟨_, .readKeyboard i⟩
    case switchMemory => exact .inl ⟨_, .switchMemory⟩
    case skipEq => obtain ⟨⟨i, rfl⟩, ⟨j, rfl⟩⟩ := hbad; exact .inl ⟨_, .skipEq i j⟩
    case skipNeq => obtain ⟨⟨i, rfl⟩, ⟨j, rfl⟩⟩ := hbad; exact .inl ⟨_, .skipNeq i j⟩
    case setAddress a => exact .inl ⟨_, .setAddress a⟩
    case setTimer v => exact .inl ⟨_, .setTimer v⟩
    case readTimer => obtain ⟨i, rfl⟩ := hbad; exact .inl ⟨_, .readTimer i⟩
    case bcd =>
      obtain ⟨i, rfl⟩ := hbad
      by_cases h : s.a.toNat ≤ 4093
      · exact .inl ⟨_, .bcd i h⟩
      · exact .inr ⟨_, .bcd i (by omega)⟩
    case toAscii =>
      obtain ⟨⟨i, rfl⟩, ⟨j, rfl⟩⟩ := hbad
      by_cases h : (s.reg i).toNat ≤ 15
      · exact .inl ⟨_, .toAscii i j h⟩
      · exact .inr ⟨_, .digit i j (by omega)⟩
    case draw row col =>
      obtain ⟨i, rfl⟩ := hbad
      by_cases h : (s.reg i).toNat ≤ 0x7F ∧ row.toNat < 8 ∧ col.toNat < 8
      · obtain ⟨j, rfl⟩ : ∃ j, row = regNo j := ⟨⟨row.toNat, h.2.1⟩, eq_regNo rfl⟩
        obtain ⟨k, rfl⟩ : ∃ k, col = regNo k := ⟨⟨col.toNat, h.2.2⟩, eq_regNo rfl⟩
        exact .inl ⟨_, .draw i j k h.1⟩
      · exact .inr ⟨_, .draw i row col (by omega)⟩
  · exact .inr ⟨_, .badField hbad⟩

/-- THE INVERSION LEMMA OF `exec`: what a next state can be. -/
theorem exec_inv {ins : Instr} {t : State} (h : exec ins s = .next t) :
    Completes s ins t ∨ ∃ c, FaultsBy s ins c ∧ t = s.raise c := by
  rcases exec_total ins s with ⟨t', ht⟩ | ⟨c, hc⟩
  · have := (exec_of_completes ht).symm.trans h
    cases this
    exact .inl ht
  · have := (exec_of_faultsBy hc).symm.trans h
    cases this
    exact .inr ⟨c, hc, rfl⟩

end Sys2Proof.Machine
end

