-- ==== Sys2Proof/Laws/HostOps.lean ====
section
/-! SUPPORT. One lemma for each shared operation of the host: where it answers a next state, where it is
refused, and what it answers; then the inversion lemmas of `serve` and of `step`, which say once every
next state a move can answer. -/

namespace Sys2Proof.Machine

/-- R253: the host may set a register of a Stopped machine, or between direct steps. -/
theorem maySet_iff {s : State} :
    s.maySet = true ↔ s.rs = .stopped ∨ (s.hostStepped = true ∧ nextStepDirect s.agenda = true) := by
  unfold State.maySet
  cases h : s.rs <;> simp

theorem maySet_running {s : State} (h : s.rs = .running) :
    s.maySet = (s.hostStepped && nextStepDirect s.agenda) := by
  simp [State.maySet, h]

theorem inPlace_ok {s : State} (s' : State) (h : s.maySet = true) : inPlace s s' = .next s' :=
  if_pos h

theorem inPlace_refused {s : State} (s' : State) (h : s.maySet = false) :
    inPlace s s' = .refused .setWhileRunning := by
  simp [inPlace, h]

/-- A set in place answers its state, and nothing else answers one. -/
theorem inPlace_eq_next {s s' t : State} : inPlace s s' = .next t ↔ s.maySet = true ∧ s' = t := by
  cases h : s.maySet <;> simp [inPlace, h]

/-- A load of a Stopped machine answers its state, and nothing else answers one. -/
theorem whileStopped_eq_next {s s' t : State} :
    whileStopped s s' = .next t ↔ s.rs = .stopped ∧ s' = t := by
  cases h : s.rs <;> simp [whileStopped, h]

theorem withHostReg_ok (s : State) (i : Fin 8) (act : Fin 8 → Host.Outcome State Fault Refusal) :
    withHostReg s i.val act = act i := by
  simp [withHostReg]

theorem withHostReg_out (s : State) {n : Nat} (act : Fin 8 → Host.Outcome State Fault Refusal)
    (h : 8 ≤ n) : withHostReg s n act = .next (s.reply (.indexOutOfRange n)) :=
  dif_neg (Nat.not_lt.mpr h)

/-- A host read of a byte gives it inside the bank and fails to the host outside. -/
theorem hostRead_eq (s : State) (b : Bank) (addr : Nat) :
    s.hostRead b addr = if addr ≤ 4095 then .byte (s.byteAt b addr) else .outOfBounds b addr := by
  unfold State.hostRead
  by_cases h : addr ≤ 4095
  · simp [bankRead_ok s (show addr < Config.bankSize by simp [Config.bankSize]; omega), h]
  · simp [bankRead_error s (show Config.bankSize ≤ addr by simp [Config.bankSize]; omega), h]

/-! ### The inversion lemmas -/

/-- What a host operation other than a direct `execute()` leaves. -/
inductive Served (s : State) : HostOp → State → Prop where
  | start : Served s .start s.start
  | stop : Served s .stop s.stop
  | tick : Served s .tick s.tick
  | load (image : List Byte) (h : s.rs = .stopped) : Served s (.loadRom image) (s.loadRom image)
  | getReg (i : Fin 8) : Served s (.getReg i.val) (s.reply (.reg (s.reg i)))
  | badIndex {op : HostOp} {n : Nat} (h : 8 ≤ n) (hop : op = .getReg n ∨ ∃ v, op = .setReg n v) :
      Served s op (s.reply (.indexOutOfRange n))
  | getPc : Served s .getPc (s.reply (.pc s.pc))
  | getAddr : Served s .getAddr (s.reply (.addr s.a))
  | getBank : Served s .getBank (s.reply (.bank s.m))
  | getTimer : Served s .getTimer (s.reply (.timer s.t))
  | getRunState : Served s .getRunState (s.reply (.runState s.rs))
  | getByte (b : Bank) (addr : Nat) : Served s (.getByte b addr) (s.reply (s.hostRead b addr))
  | getCell (row col : Fin 8) :
      Served s (.getCell row col) (s.reply (.cell ((s.screen.get row).get col)))
  | setReg (i : Fin 8) (v : Byte) (h : s.maySet = true) :
      Served s (.setReg i.val v) ((s.setReg i v).reply .done)
  | setPc (v : Addr) (h : s.maySet = true) : Served s (.setPc v) (s.setPc (v.setWidth 13))
  | setAddr (v : Addr) (h : s.maySet = true) : Served s (.setAddr v) (s.setAddr v)
  | setBank (b : Bank) (h : s.maySet = true) : Served s (.setBank b) (s.setBank b)
  | setTimer (v : Byte) : Served s (.setTimer v) (s.setTimer v)

/-- A register access is of a register, or fails to the host. -/
theorem withHostReg_cases {s t : State} {n : Nat} {act : Fin 8 → Host.Outcome State Fault Refusal}
    (h : withHostReg s n act = .next t) :
    (∃ i : Fin 8, n = i.val ∧ act i = .next t) ∨ (8 ≤ n ∧ t = s.reply (.indexOutOfRange n)) := by
  by_cases hn : n < 8
  · exact .inl ⟨⟨n, hn⟩, rfl, by simpa [withHostReg, hn] using h⟩
  · exact .inr ⟨by omega, by simpa [withHostReg, hn, eq_comm] using h⟩

/-- THE INVERSION LEMMA OF `serve`. -/
theorem serve_inv {op : HostOp} {s t : State} (h : serve op s = .next t) :
    (op = .execute ∧ execute (s.noteStep true) = .next t) ∨ Served s op t := by
  cases op with
  | execute => exact .inl ⟨rfl, h⟩
  | start => cases h; exact .inr .start
  | stop => cases h; exact .inr .stop
  | tick => cases h; exact .inr .tick
  | setTimer v => cases h; exact .inr (.setTimer v)
  | loadRom image => obtain ⟨hs, rfl⟩ := whileStopped_eq_next.mp h; exact .inr (.load image hs)
  | getReg n =>
    simp only [serve] at h
    rcases withHostReg_cases h with ⟨i, rfl, hi⟩ | ⟨hn, rfl⟩
    · cases hi; exact .inr (.getReg i)
    · exact .inr (.badIndex hn (.inl rfl))
  | setReg n v =>
    simp only [serve] at h
    rcases withHostReg_cases h with ⟨i, rfl, hi⟩ | ⟨hn, rfl⟩
    · obtain ⟨hs, rfl⟩ := inPlace_eq_next.mp hi; exact .inr (.setReg i v hs)
    · exact .inr (.badIndex hn (.inr ⟨v, rfl⟩))
  | setPc v => obtain ⟨hs, rfl⟩ := inPlace_eq_next.mp h; exact .inr (.setPc v hs)
  | setAddr v => obtain ⟨hs, rfl⟩ := inPlace_eq_next.mp h; exact .inr (.setAddr v hs)
  | setBank b => obtain ⟨hs, rfl⟩ := inPlace_eq_next.mp h; exact .inr (.setBank b hs)
  | getPc => cases h; exact .inr .getPc
  | getAddr => cases h; exact .inr .getAddr
  | getBank => cases h; exact .inr .getBank
  | getTimer => cases h; exact .inr .getTimer
  | getRunState => cases h; exact .inr .getRunState
  | getByte b addr => cases h; exact .inr (.getByte b addr)
  | getCell row col => cases h; exact .inr (.getCell row col)

/-- THE INVERSION LEMMA OF `step`, `u` being the state after the ticks that fall, with the move taken off
the agenda: the clock steps a Running machine and leaves a Stopped one, or the host's operation is
served, a direct `execute()` or another. -/
theorem step_inv {s t : State} (h : step s = .next t) :
    let u := s.elapse.setAgenda (nextMove s).2
    ((nextMove s).1 = .clock ∧ s.rs = .running ∧ execute (u.noteStep false) = .next t) ∨
    ((nextMove s).1 = .clock ∧ s.rs = .stopped ∧ t = u) ∨
    ((nextMove s).1 = .host .execute ∧ execute (u.noteStep true) = .next t) ∨
    ∃ op, (nextMove s).1 = .host op ∧ Served u op t := by
  unfold step at h
  cases hmv : (nextMove s).1 with
  | clock =>
    rw [hmv] at h
    cases hrs : s.rs with
    | running => exact .inl ⟨rfl, rfl, by simpa [perform, clockFires, hrs] using h⟩
    | stopped => exact .inr (.inl ⟨rfl, rfl, by simpa [perform, clockFires, hrs, eq_comm] using h⟩)
  | host op =>
    rw [hmv] at h
    rcases serve_inv h with ⟨rfl, he⟩ | hs
    · exact .inr (.inr (.inl ⟨rfl, he⟩))
    · exact .inr (.inr (.inr ⟨op, rfl, hs⟩))

end Sys2Proof.Machine
end

