-- ==== Sys2Proof/Laws/PerInstr.lean ====
section
/-! SUPPORT. Statements about every instruction as syntax, one lemma for each constructor. -/

namespace Sys2Proof.Laws.EncodedOpcode

/-- The canonical word of an instruction carries the opcode of its row in bits 15..12 (R71, R74). -/
def Statement (i : Instr) : Prop := opcodeOf (encode i) = i.opcode

theorem halt : Statement .halt := by
  unfold Statement; decide

theorem store (rX : Nibble) (imm8 : Byte) : Statement (.store rX imm8) := by
  have rX_lt := rX.isLt
  have imm8_lt := imm8.isLt
  simp only [Statement, encode, Instr.opcode, opcodeOf, wordOf, BitVec.toNat_ofNat,
    Nat.shiftRight_eq_div_pow]
  omega

theorem add (rX rY rZ : Nibble) : Statement (.add rX rY rZ) := by
  have rX_lt := rX.isLt
  have rY_lt := rY.isLt
  have rZ_lt := rZ.isLt
  simp only [Statement, encode, Instr.opcode, opcodeOf, wordOf, BitVec.toNat_ofNat,
    Nat.shiftRight_eq_div_pow]
  omega

theorem sub (rX rY rZ : Nibble) : Statement (.sub rX rY rZ) := by
  have rX_lt := rX.isLt
  have rY_lt := rY.isLt
  have rZ_lt := rZ.isLt
  simp only [Statement, encode, Instr.opcode, opcodeOf, wordOf, BitVec.toNat_ofNat,
    Nat.shiftRight_eq_div_pow]
  omega

theorem read (rX : Nibble) : Statement (.read rX) := by
  have rX_lt := rX.isLt
  simp only [Statement, encode, Instr.opcode, opcodeOf, wordOf, BitVec.toNat_ofNat,
    Nat.shiftRight_eq_div_pow]
  omega

theorem write (rX : Nibble) : Statement (.write rX) := by
  have rX_lt := rX.isLt
  simp only [Statement, encode, Instr.opcode, opcodeOf, wordOf, BitVec.toNat_ofNat,
    Nat.shiftRight_eq_div_pow]
  omega

theorem jump (addr12 : Addr) : Statement (.jump addr12) := by
  have addr12_lt := addr12.isLt
  simp only [Statement, encode, Instr.opcode, opcodeOf, wordOf, BitVec.toNat_ofNat,
    Nat.shiftRight_eq_div_pow]
  omega

theorem readKeyboard (rX : Nibble) : Statement (.readKeyboard rX) := by
  have rX_lt := rX.isLt
  simp only [Statement, encode, Instr.opcode, opcodeOf, wordOf, BitVec.toNat_ofNat,
    Nat.shiftRight_eq_div_pow]
  omega

theorem switchMemory : Statement .switchMemory := by
  unfold Statement; decide

theorem skipEq (rX rY : Nibble) : Statement (.skipEq rX rY) := by
  have rX_lt := rX.isLt
  have rY_lt := rY.isLt
  simp only [Statement, encode, Instr.opcode, opcodeOf, wordOf, BitVec.toNat_ofNat,
    Nat.shiftRight_eq_div_pow]
  omega

theorem skipNeq (rX rY : Nibble) : Statement (.skipNeq rX rY) := by
  have rX_lt := rX.isLt
  have rY_lt := rY.isLt
  simp only [Statement, encode, Instr.opcode, opcodeOf, wordOf, BitVec.toNat_ofNat,
    Nat.shiftRight_eq_div_pow]
  omega

theorem setAddress (addr12 : Addr) : Statement (.setAddress addr12) := by
  have addr12_lt := addr12.isLt
  simp only [Statement, encode, Instr.opcode, opcodeOf, wordOf, BitVec.toNat_ofNat,
    Nat.shiftRight_eq_div_pow]
  omega

theorem setTimer (val8 : Byte) : Statement (.setTimer val8) := by
  have val8_lt := val8.isLt
  simp only [Statement, encode, Instr.opcode, opcodeOf, wordOf, BitVec.toNat_ofNat,
    Nat.shiftRight_eq_div_pow]
  omega

theorem readTimer (rX : Nibble) : Statement (.readTimer rX) := by
  have rX_lt := rX.isLt
  simp only [Statement, encode, Instr.opcode, opcodeOf, wordOf, BitVec.toNat_ofNat,
    Nat.shiftRight_eq_div_pow]
  omega

theorem bcd (rX : Nibble) : Statement (.bcd rX) := by
  have rX_lt := rX.isLt
  simp only [Statement, encode, Instr.opcode, opcodeOf, wordOf, BitVec.toNat_ofNat,
    Nat.shiftRight_eq_div_pow]
  omega

theorem toAscii (rX rY : Nibble) : Statement (.toAscii rX rY) := by
  have rX_lt := rX.isLt
  have rY_lt := rY.isLt
  simp only [Statement, encode, Instr.opcode, opcodeOf, wordOf, BitVec.toNat_ofNat,
    Nat.shiftRight_eq_div_pow]
  omega

theorem draw (rX row col : Nibble) : Statement (.draw rX row col) := by
  have rX_lt := rX.isLt
  have row_lt := row.isLt
  have col_lt := col.isLt
  simp only [Statement, encode, Instr.opcode, opcodeOf, wordOf, BitVec.toNat_ofNat,
    Nat.shiftRight_eq_div_pow]
  omega

end Sys2Proof.Laws.EncodedOpcode
end

