-- ==== Sys2Proof/Tests/Slice0.lean ====
section
/-! SUPPORT. Tests of the model against words and results written out by hand from spec/95_test_vectors.md
and the rules' own examples, and for each statement with hypotheses a state and operands that meet them. -/

namespace Sys2Proof.Tests

open Sys2Proof Sys2Proof.Machine

/-! ### Helpers -/

/-- The state an answer holds. -/
def after : Host.Outcome State Fault Refusal → Option State
  | .next t => some t
  | .fault _ => none
  | .refused _ => none

/-- The power-on state with registers 0, 1 and 2 set. -/
def withRegs (a b c : Byte) : State := ((State.reset.setReg 0 a).setReg 1 b).setReg 2 c

/-- A machine that runs, with one word at pc. -/
def running (w : Nat) : State := State.reset.withFetchWord 16 w

/-- The same machine, Stopped, with the host about to call `execute()`. -/
def direct (w : Nat) : State := ((running w).setRunState .stopped).setAgenda [.host .execute]

/-! ### WellFormed -/

theorem test_store_r0_zero_has_no_encoding : Instr.wellFormed (.store 0 0) = false := by decide
theorem test_store_r0_one_is_well_formed : Instr.wellFormed (.store 0 1) = true := by decide

/-! ### Decoding, one word at least for each constructor (V-DEC and the rules' examples) -/

theorem test_decode_halt : decodeWord 0x0000 = .ok .halt := by decide
-- 0000 0111 1111 1111
theorem test_decode_store : decodeWord 0b0000011111111111 = .ok (.store 7 0xFF) := by decide
-- 0001 0010 0011 0100
theorem test_decode_add : decodeWord 0b0001001000110100 = .ok (.add 2 3 4) := by decide
-- 0010 0111 0110 0101
theorem test_decode_sub : decodeWord 0b0010011101100101 = .ok (.sub 7 6 5) := by decide
-- 0011 0101 xxxx xxxx
theorem test_decode_read : decodeWord 0b0011010111111111 = .ok (.read 5) := by decide
-- 0100 0011 xxxx xxxx
theorem test_decode_write : decodeWord 0b0100001100000000 = .ok (.write 3) := by decide
-- 0101 1111 1111 1110
theorem test_decode_jump : decodeWord 0b0101111111111110 = .ok (.jump 0xFFE) := by decide
-- 0110 0111 xxxx xxxx
theorem test_decode_readKeyboard : decodeWord 0b0110011100000000 = .ok (.readKeyboard 7) := by decide
-- 0111 xxxx xxxx xxxx
theorem test_decode_switchMemory : decodeWord 0b0111101010111100 = .ok .switchMemory := by decide
-- 1000 0001 0010 xxxx
theorem test_decode_skipEq : decodeWord 0b1000000100101111 = .ok (.skipEq 1 2) := by decide
-- 1001 0111 0110 xxxx
theorem test_decode_skipNeq : decodeWord 0b1001011101100000 = .ok (.skipNeq 7 6) := by decide
-- 1010 0001 1111 0010
theorem test_decode_setAddress : decodeWord 0b1010000111110010 = .ok (.setAddress 0x1F2) := by decide
-- 1011 0000 1010 xxxx: the value is bits 11..4
theorem test_decode_setTimer : decodeWord 0b1011000010101111 = .ok (.setTimer 0x0A) := by decide
-- 1100 0011 xxxx xxxx
theorem test_decode_readTimer : decodeWord 0b1100001100000000 = .ok (.readTimer 3) := by decide
-- 1101 0010 xxxx xxxx
theorem test_decode_bcd : decodeWord 0b1101001000000000 = .ok (.bcd 2) := by decide
-- 1110 0001 0010 xxxx
theorem test_decode_toAscii : decodeWord 0b1110000100100000 = .ok (.toAscii 1 2) := by decide
-- 1111 0001 0010 0011
theorem test_decode_draw : decodeWord 0b1111000100100011 = .ok (.draw 1 2 3) := by decide

/-- Two bytes are needed. -/
theorem test_decode_one_byte : decode [0x01] = .error (.truncated 1) := by decide
theorem test_decode_bytes : decode [0x10, 0x12, 0xFF] = .ok (.add 0 1 2, [0xFF]) := by decide
/-- R79: the decoder refuses an opcode outside 0..15 by name. -/
theorem test_unknown_opcode : decodeOpcode 16 0 = .error ⟨16⟩ := by decide

/-! ### Instructions -/

-- V-SRC-6: HALT does not write x[0], pc is kept
theorem test_halt :
    (after (execute (withRegs 0x77 0 0))).map (fun t => (t.reg 0, t.pc, t.rs, t.diags))
      = some (0x77, 0, .stopped, [.halt 0]) := by decide
-- R130: word 0x0105
theorem test_store :
    (after (exec (.store 1 5) (State.reset.setPc 2))).map (fun t => (t.reg 1, t.pc))
      = some (5, 4) := by decide
-- V-ARI: 200 + 100 = 44
theorem test_add_wraps :
    (after (exec (.add 0 1 2) (withRegs 200 100 0))).map (fun t => (t.reg 2, t.pc))
      = some (44, 2) := by decide
-- V-ARI: 1111 with x[1] = 0x90
theorem test_add_doubles :
    (after (exec (.add 1 1 1) (withRegs 0 0x90 0))).map (fun t => t.reg 1) = some 0x20 := by decide
-- V-SRC-1: 0x10 - 0x20 = 0xF0
theorem test_sub_wraps :
    (after (exec (.sub 0 1 2) (withRegs 0x10 0x20 0))).map (fun t => t.reg 2) = some 0xF0 := by decide
-- V-ARI: 2011 with x[0] = 9, x[1] = 4: the source is read before it is written
theorem test_sub_source_is_destination :
    (after (exec (.sub 0 1 1) (withRegs 9 4 0))).map (fun t => t.reg 1) = some 5 := by decide
-- V-ASC: 0x0B is 'B', 9 is '9'
theorem test_toAscii :
    (after (exec (.toAscii 1 2) (withRegs 0 0x0B 0))).map (fun t => t.reg 2) = some 0x42 ∧
    (after (exec (.toAscii 0 0) (withRegs 9 0 0))).map (fun t => t.reg 0) = some 0x39 := by decide
-- V-ASC: 0x1A faults, and E080 with x[0] = 0xFF faults on the index first
theorem test_toAscii_faults :
    (after (exec (.toAscii 0 1) (withRegs 0x1A 7 0))).map (fun t => (t.reg 1, t.pc, t.diags))
      = some (7, 0, [.fault (.invalidDigit 0x1A)]) ∧
    (after (exec (.toAscii 0 8) (withRegs 0xFF 0 0))).map (fun t => t.diags)
      = some [.fault (.registerIndexOutOfRange .rY 8)] := by decide
theorem test_setAddress :
    (after (exec (.setAddress 0xFFF) State.reset)).map (fun t => (t.a, t.pc)) = some (0xFFF, 2) := by
  decide
theorem test_switchMemory :
    (after (exec .switchMemory State.reset)).map (fun t => t.m) = some .rom := by decide
-- V-MEM: the instruction reads its own high byte from ROM
theorem test_read_rom :
    (after (exec (.read 0) ((running 0x3000).setBank .rom))).map (fun t => t.reg 0)
      = some 0x30 := by decide
-- V-MEM: 7000, A020, 4000 with x[0] = 0xAB
theorem test_write_rom :
    (after (exec (.write 0) (((withRegs 0xAB 0 0).setBank .rom).setAddr 0x020))).map
      (fun t => (t.byteAt .rom 0x020, t.byteAt .ram 0x020, t.diags, t.rs))
      = some (0xAB, 0, [.romWrite 0x020 0xAB], .stopped) := by decide
-- V-BCD: 255 at 0x200
theorem test_bcd :
    (after (exec (.bcd 0) ((withRegs 255 0 0).setAddr 0x200))).map
      (fun t => (t.byteAt .ram 0x200, t.byteAt .ram 0x201, t.byteAt .ram 0x202, t.a, t.diags))
      = some (2, 5, 5, 0x200, []) := by decide
-- V-BCD: A = 4094 writes nothing and records address 4096
theorem test_bcd_faults :
    (after (exec (.bcd 0) ((withRegs 123 0 0).setAddr 4094))).map (fun t => (t.ram, t.pc, t.diags))
      = some ([], 0, [.fault (.outOfBoundsData .ram 4096)]) := by decide
-- V-SRC-4: JUMP 0x123 at 0x010
theorem test_jump_odd :
    (after (exec (.jump 0x123) (State.reset.setPc 0x010))).map (fun t => (t.pc, t.rs, t.diags))
      = some (0x010, .stopped, [.fault (.oddJumpTarget 0x123)]) := by decide
theorem test_jump :
    (after (exec (.jump 0xFFE) (State.reset.setPc 0x100))).map (fun t => t.pc) = some 0xFFE := by
  decide
-- V-SRC-5
theorem test_skipEq :
    (after (exec (.skipEq 0 1) ((withRegs 5 5 0).setPc 0x010))).map (fun t => t.pc) = some 0x014 ∧
    (after (exec (.skipEq 0 1) ((withRegs 5 6 0).setPc 0x010))).map (fun t => t.pc)
      = some 0x012 := by decide
-- V-CTL: the skip at the top of ROM is not truncated
theorem test_skipEq_at_the_top :
    (after (exec (.skipEq 0 1) (State.reset.setPc 0xFFE))).map (fun t => t.pc) = some 0x1002 := by
  decide
-- V-CTL
theorem test_skipNeq :
    (after (exec (.skipNeq 0 2) ((withRegs 3 0 0).setPc 0x008))).map (fun t => t.pc) = some 0x00C ∧
    (after (exec (.skipNeq 0 2) ((withRegs 0 0 0).setPc 0x008))).map (fun t => t.pc)
      = some 0x00A := by decide
theorem test_setTimer :
    (after (exec (.setTimer 60) State.reset)).map (fun t => (t.t, t.pc)) = some (60, 2) := by decide
-- V-TIM: T = 95, word C200
theorem test_readTimer :
    (after (exec (.readTimer 2) (State.reset.setTimer 95))).map (fun t => (t.reg 2, t.t))
      = some (95, 95) := by decide
/-- The byte is free, so the test expects whatever the provider answers. -/
theorem test_readKeyboard :
    (after (exec (.readKeyboard 3) State.reset)).map (fun t => (t.reg 3, t.keyReads, t.pc))
      = some (Config.keyInput 0, 1, 2) := rfl
-- V-KBD: a bad index consumes no answer
theorem test_readKeyboard_faults :
    (after (exec (.readKeyboard 8) State.reset)).map (fun t => t.keyReads) = some 0 := by decide
-- V-DRW: F123 with x[1] = 0x41
theorem test_draw :
    (after (exec (.draw 1 2 3) (withRegs 0 0x41 0))).map
      (fun t => ((t.screen.get 2).get 3, (t.screen.get 3).get 2, t.displayCalls))
      = some (0x41, 0x20, [.set 3 2 0x41, .render]) := by decide
-- V-DRW: F080 and x[0] = 0x80
theorem test_draw_faults :
    (after (exec (.draw 0 8 0) (withRegs 0x41 0 0))).map (fun t => (t.displayCalls, t.diags))
      = some ([], [.fault (.invalidDrawParameters 0x41 8 0)]) ∧
    (after (exec (.draw 0 0 0) (withRegs 0x80 0 0))).map (fun t => t.rs) = some .stopped := by decide
-- V-ARI: 189F faults on rX
theorem test_first_field_faults :
    (after (exec (.add 8 9 15) State.reset)).map (fun t => t.diags)
      = some [.fault (.registerIndexOutOfRange .rX 8)] := by decide

/-! ### Steps, fetch, host -/

-- V-SRC-6: a step at pc = 1
theorem test_odd_pc :
    (after (execute (State.reset.setPc 1))).map (fun t => (t.pc, t.diags))
      = some (1, [.fault (.oddProgramCounter 1)]) := by decide
-- V-CTL: the step at 4096
theorem test_fetch_past_the_top :
    (after (execute (State.reset.setPc 4096))).map (fun t => t.diags)
      = some [.fault (.outOfBoundsFetch 4096)] := by decide
theorem test_step_runs_the_placed_word :
    (after (step (running 0x0105))).map (fun t => (t.reg 1, t.pc, t.rs)) = some (5, 2, .running) := by
  decide
-- V-RUN: a direct execute() of a Stopped machine
theorem test_direct_execute :
    (after (step (direct 0x0105))).map (fun t => (t.reg 1, t.pc, t.rs, t.agenda))
      = some (5, 2, .stopped, []) := by decide
theorem test_stopped_clock_does_nothing :
    (after (step ((running 0x0105).setRunState .stopped))).map (fun t => (t.reg 1, t.pc))
      = some (0, 0) := by decide
-- V-SRC-8: set(100), five ticks, 95; and 0 stays 0
theorem test_ticks :
    (State.tick^[5] (State.reset.setTimer 100)).t = 95 ∧ State.reset.tick.t = 0 ∧
    ticksCount 100 5 = 95 := by decide
-- R231, R229: more ticks than the count hold at 0
theorem test_ticks_hold : ticksCount 3 4 = 0 := by decide
-- R52: bytes from 0, zero above
theorem test_loadRom :
    (after (serve (.loadRom [0x01, 0x00, 0x05]) (running 0x0105 |>.setRunState .stopped))).map
      (fun t => (t.byteAt .rom 0, t.byteAt .rom 1, t.byteAt .rom 2, t.rom))
      = some (0x01, 0, 0x05, [(0, 0x01), (2, 0x05)]) := by decide
theorem test_table_word : decodeTableWord 16 0xF123 = some (.draw 1 2 3) := by decide

/-! ### Witnesses: operands and states that meet the hypotheses of the statements

The operand fields at the edge of what names a register: 7 does, 8 does not. -/

theorem test_witness_fields :
    (7 : Nibble).toNat = (7 : Fin 8).val ∧ (0 : Nibble).toNat = (0 : Fin 8).val ∧
    8 ≤ (8 : Nibble).toNat ∧ (7 : Nibble).toNat < 8 ∧ 8 ≤ (15 : Nibble).toNat := by decide
theorem test_witness_DecodeOfEncode : Instr.wellFormed (.store 0 255) = true := by decide
theorem test_witness_EncodeOfDecode : decodeWord 0x31FF = .ok (.read 1) := by decide
theorem test_witness_ZeroWordAloneIsHalt :
    (0x0FFF : Word) ≠ 0x0000 ∧ (0x0FFF : Word).toNat / 4096 = 0 := by decide
theorem test_witness_IgnoredBitsDoNotMatter :
    opcodeOf 0x31FF = opcodeOf 0x3100 ∧
    (0x31FF : Word) &&& usedBits (opcodeOf 0x31FF) = 0x3100 &&& usedBits (opcodeOf 0x31FF) := by
  decide
theorem test_witness_DecoderReadsHighByteFirst :
    Instr.wellFormed .halt = true ∧ ([0x01] : List Byte).length < 2 := by decide
/-- The last address a fetch accepts, a running machine and a direct `execute()`. -/
theorem test_witness_StepRunsTheDecodedInstruction :
    ∀ s ∈ [(State.reset.setPc 4094).withFetchWord 16 0x0105,
        ((running 0x0105).setAgenda [.clock]), direct 0x0105],
      s.pc.toNat % 2 = 0 ∧ s.pc.toNat ≤ 4094 ∧
      decodeWord (s.byteAt .rom s.pc.toNat ++ s.byteAt .rom (s.pc.toNat + 1))
        = .ok (.store 1 5) := by decide
theorem test_witness_step_agendas :
    (running 0x0105).agenda = [] ∧ (running 0x0105).rs = .running ∧
    ((running 0x0105).setAgenda [.clock]).rs = .running ∧
    (direct 0x0105).agenda = .host .execute :: [] := by decide
theorem test_witness_OddPc :
    (State.reset.setPc 1).pc.toNat % 2 = 1 ∧
    (∃ t, exec .halt State.reset = .next t) ∧ State.reset.pc.toNat % 2 = 0 ∧
    ((after (step (State.reset.setAgenda [.host (.setPc 1)]))).map fun t => t.pc.toNat % 2) = some 1 ∧
    (State.reset.setAgenda [.host (.setPc 1)]).pc.toNat % 2 = 0 :=
  ⟨by decide, ⟨_, rfl⟩, by decide, by decide, by decide⟩
theorem test_witness_FetchPastTheTopOfRom :
    (State.reset.setPc 4096).pc.toNat % 2 = 0 ∧ 4094 < (State.reset.setPc 4096).pc.toNat := by
  decide
theorem test_witness_FetchDependsOnPcAndRomAlone :
    (State.reset.setBank .rom).pc = State.reset.pc ∧
    ∀ addr, (State.reset.setBank .rom).byteAt .rom addr = State.reset.byteAt .rom addr :=
  ⟨rfl, fun _ => rfl⟩
theorem test_witness_WrittenCodeIsFetched :
    (State.reset.setBank .rom).m = .rom ∧ (4094 : Pc).toNat % 2 = 0 ∧ (4094 : Pc).toNat ≤ 4094 ∧
    (State.reset.setAddr 4094).a.toNat = (4094 : Pc).toNat ∧
    (State.reset.setAddr 4095).a.toNat = (4094 : Pc).toNat + 1 := by decide
theorem test_witness_PlacedWordRunsNext : decodeWord 0x0105 = .ok (.store 1 5) := by decide
theorem test_witness_HaltStopsCleanly :
    State.reset.pc.toNat % 2 = 0 ∧ State.reset.pc.toNat ≤ 4094 ∧
    State.reset.byteAt .rom State.reset.pc.toNat = 0 ∧
    State.reset.byteAt .rom (State.reset.pc.toNat + 1) = 0 := by decide
theorem test_witness_StoreLoadsTheImmediate :
    ((0 : Nibble) ≠ 0 ∨ (1 : Byte) ≠ 0) ∧ ((1 : Nibble) ≠ 0 ∨ (0 : Byte) ≠ 0) := by decide
theorem test_witness_ToAscii :
    ((withRegs 15 16 0).reg 0).toNat ≤ 15 ∧ 15 < ((withRegs 15 16 0).reg 1).toNat ∧
    ((withRegs 9 10 0).reg 0).toNat ≤ 9 ∧ ¬ ((withRegs 9 10 0).reg 1).toNat ≤ 9 := by decide
theorem test_witness_Bcd :
    (State.reset.setAddr 4093).a.toNat ≤ 4093 ∧ 4094 ≤ (State.reset.setAddr 4094).a.toNat := by
  decide
theorem test_witness_Jump : (0xFFE : Addr).toNat % 2 = 0 ∧ (0xFFF : Addr).toNat % 2 = 1 := by decide
theorem test_witness_Skips :
    (withRegs 5 5 6).reg 0 = (withRegs 5 5 6).reg 1 ∧
    (withRegs 5 5 6).reg 0 ≠ (withRegs 5 5 6).reg 2 := by decide
theorem test_witness_Draw :
    ((withRegs 0x7F 0x80 0).reg 0).toNat ≤ 0x7F ∧ 0x7F < ((withRegs 0x7F 0x80 0).reg 1).toNat := by
  decide
theorem test_witness_BadRegisterField :
    (registerFields (.add 1 8 9)).find? (fun p => 8 ≤ p.2.toNat) = some (.rY, 8) := by decide
theorem test_witness_OnlyToAsciiFaultsInvalidDigit :
    Instr.toAscii 1 2 = .toAscii (regNo 1) (regNo 2) ∧ (withRegs 0 16 0).reg 1 = 16 ∧
    0x0F < (16 : Byte).toNat := by decide
theorem test_witness_OnlyDrawFaults :
    Instr.draw 1 7 8 = .draw (regNo 1) 7 8 ∧ (withRegs 0 0x41 0).reg 1 = 0x41 ∧
    (0x7F < (0x41 : Byte).toNat ∨ 7 < (7 : Nibble).toNat ∨ 7 < (8 : Nibble).toNat) := by decide
theorem test_witness_OnlyJumpFaults : (0x123 : Addr).toNat % 2 = 1 := by decide
theorem test_witness_OnlyBcdFaults :
    Instr.bcd 7 = .bcd (regNo 7) ∧ 4094 ≤ (State.reset.setAddr 4095).a.toNat := by decide
theorem test_witness_FaultsLeaveNoPartialState :
    ∃ t, exec (.store 8 0) State.reset = .next t ∧
      .fault (.registerIndexOutOfRange .rX 8) ∈ t.diags.drop State.reset.diags.length :=
  ⟨_, rfl, by decide⟩
theorem test_witness_PcAfterEveryInstruction :
    (State.reset.setPc 4094).pc.toNat ≤ 4094 ∧
    (∃ t, exec (.skipEq 0 0) (State.reset.setPc 4094) = .next t ∧
      ∀ c, .fault c ∉ t.diags.drop (State.reset.setPc 4094).diags.length) ∧
    (∃ t c, exec (.jump 1) State.reset = .next t ∧
      .fault c ∈ t.diags.drop State.reset.diags.length) :=
  ⟨by decide, ⟨_, rfl, fun _ => List.not_mem_nil⟩, ⟨_, .oddJumpTarget 1, rfl, by decide⟩⟩
theorem test_witness_RegistersNotNamed :
    (∃ t, exec (.store 1 5) State.reset = .next t) ∧
    destinationField (.store 1 5) ≠ some (regNo 2) ∧
    (∀ f, (f, regNo 2) ∉ registerFields (.store 1 5)) :=
  ⟨⟨_, rfl⟩, by decide, fun f => by cases f <;> decide⟩
theorem test_witness_SpecialStateHasOneWriter :
    (after (exec (.setAddress 1) State.reset)).map (fun t => decide (t.a ≠ State.reset.a)) = some true ∧
    (after (exec .switchMemory State.reset)).map (fun t => decide (t.m ≠ State.reset.m)) = some true ∧
    (after (exec (.setTimer 1) State.reset)).map (fun t => decide (t.t ≠ State.reset.t)) = some true ∧
    (after (exec (.draw 0 0 0) State.reset)).map (fun t => decide (t.screen ≠ State.reset.screen))
      = some true ∧
    (after (exec (.readKeyboard 0) State.reset)).map (fun t => t.keyReads) = some 1 ∧
    (after (exec .halt (running 0))).map (fun t => decide (t.rs ≠ .running)) = some true := by decide
theorem test_witness_MemoryChangesOnlyThroughA :
    (after (exec (.write 0) (withRegs 7 0 0))).map (fun t => t.byteAt .ram 0) = some 7 ∧
    (withRegs 7 0 0).byteAt .ram 0 ≠ 7 := by decide
theorem test_witness_RomWritesAreWarnedOf :
    ∃ t, exec (.write 0) ((withRegs 7 0 0).setBank .rom) = .next t ∧
      .romWrite 0 7 ∈ t.diags.drop ((withRegs 7 0 0).setBank .rom).diags.length ∧
      t.byteAt .rom 0 ≠ ((withRegs 7 0 0).setBank .rom).byteAt .rom 0 :=
  ⟨_, rfl, by decide, by decide⟩
theorem test_witness_TimerIsInvisible :
    (∀ rX, Instr.store 1 5 ≠ .readTimer rX) ∧ (∀ u, Instr.store 1 5 ≠ .setTimer u) ∧
    ∃ t, exec (.store 1 5) State.reset = .next t :=
  ⟨fun _ => Instr.noConfusion, fun _ => Instr.noConfusion, _, rfl⟩
theorem test_witness_BankBounds : (4095 : Nat) ≤ 4095 ∧ (4095 : Nat) < 4096 := by decide
theorem test_witness_CanonicalBanks :
    Memory.wf [(0, 1), (4095, 2)] ∧
    ∀ addr, Memory.read [(0, 1), (4095, 2)] addr = Memory.read [(0, 1), (4095, 2)] addr :=
  ⟨by decide, fun _ => rfl⟩
theorem test_witness_LoadRom :
    State.reset.rs = .stopped ∧ (List.replicate 4096 (1 : Byte)).length ≤ 4096 ∧
    4096 < (List.replicate 4097 (1 : Byte)).length :=
  ⟨rfl, by rw [List.length_replicate], by rw [List.length_replicate]; decide⟩
theorem test_witness_Tick :
    0 < (State.reset.setTimer 1).t.toNat ∧ State.reset.t = 0 := by decide
theorem test_witness_FreeTicks : (running 0).rs = .running ∧ State.reset.rs = .stopped := by decide
theorem test_witness_StopOnlyStops : State.reset.rs = .stopped := by decide
theorem test_witness_RunState :
    (∃ t, step (State.reset.setAgenda [.host .start]) = .next t) ∧
    (nextMove (State.reset.setAgenda [.host .start])).1 = .host .start ∧
    (∃ t, step (State.reset.setAgenda [.host .stop]) = .next t) ∧
    (nextMove (State.reset.setAgenda [.host .stop])).1 = .host .stop ∧
    (∃ t, step (running 0) = .next t) ∧ (nextMove (running 0)).1 = .clock ∧
    (running 0).rs = .running ∧
    (∃ t, step (direct 0) = .next t) ∧ (nextMove (direct 0)).1 = .host .execute ∧
    (∃ t, step (State.reset.setAgenda [.host .tick]) = .next t) :=
  ⟨⟨_, rfl⟩, rfl, ⟨_, rfl⟩, rfl, ⟨_, rfl⟩, rfl, rfl, ⟨_, rfl⟩, rfl, ⟨_, rfl⟩⟩
theorem test_witness_StoppedMachineRests :
    State.reset.rs = .stopped ∧ State.reset.agenda = [] := by decide
/-- A machine that runs and that the host has stepped, the host about to make this move and step again. -/
def between (op : HostOp) : State :=
  ((running 0).noteStep true).setAgenda [.host op, .host .getPc, .host .execute]

theorem test_witness_Accessors :
    State.reset.rs = .stopped ∧ (8 : Nat) ≤ 8 ∧ (4095 : Nat) ≤ 4095 ∧ ¬ (4096 : Nat) ≤ 4095 ∧
    (between .getPc).hostStepped = true ∧ nextStepDirect (between .getPc).agenda = true ∧
    (between .getPc).rs = .running := by decide
theorem test_witness_StepRefuses :
    ((running 0).setAgenda [.host (.setPc 1)]).rs = .running ∧
    ((running 0).setAgenda [.host (.setPc 1)]).agenda = .host (.setPc 1) :: [] ∧
    breaksDuty ((running 0).hostStepped && nextStepDirect []) (.setPc 1) = true ∧
    breaksDuty true (.loadRom []) = true ∧
    breaksDuty true (.setPc 1) = false ∧ breaksDuty false .getPc = false := by decide
theorem test_witness_HostOperationsTakeTheirTurn :
    ((running 0).setAgenda [.host .tick]).agenda = .host .tick :: [] ∧
    ∃ t, step ((running 0).setAgenda [.host .tick]) = .next t :=
  ⟨rfl, _, rfl⟩
-- R253: "use them while Stopped or between direct steps"
theorem test_set_between_direct_steps :
    (after (step (between (.setReg 3 7)))).map (fun t => (t.reg 3, t.rs)) = some (7, .running) := by
  decide
-- U11: a set against a running machine otherwise is refused; the last step was a direct one here
theorem test_set_before_a_scheduled_step :
    step (((running 0).noteStep true).setAgenda [.host (.setReg 3 7)])
      = .refused .setWhileRunning := rfl
-- R236: a bad index "fails to the host ... and touches nothing"
theorem test_get_while_running :
    (after (step ((running 0).setAgenda [.host (.getReg 8)]))).map (fun t => t.replies)
      = some [.indexOutOfRange 8] := by decide
/-- A state that meets the invariant and steps; that power-on meets it is a statement of its own. -/
theorem test_witness_EveryStepKeepsTheInvariant :
    (running 0x0105).Inv ∧ ∃ t, step (running 0x0105) = .next t :=
  ⟨⟨by decide, by decide, by decide, fun _ h => absurd h List.not_mem_nil, rfl⟩, _, rfl⟩

end Sys2Proof.Tests
end

