-- ==== Sys2Proof/Proofs/BankAccess.lean ====
section
/-! The two operations of the memory component called directly (spec/20_memory.md R41, R42): the bound
in the source's own form, the frame of a bank write, and the obligations about them. -/

namespace Sys2Proof.Machine

/-- R41 bounds an address by "`0 <= a <= 4095`"; the model by the size of the bank. -/
theorem lt_bankSize_iff {addr : Nat} : addr < Config.bankSize ↔ addr ≤ 4095 := Nat.lt_succ_iff

theorem bankSize_le_iff {addr : Nat} : Config.bankSize ≤ addr ↔ 4095 < addr := Nat.succ_le_iff

/-- The frame of a bank write: its own cell and, for ROM, the diagnostic output. -/
theorem onlyChanges_bankWrite (b : Bank) (addr : Nat) (v : Byte) (s : State) :
    OnlyChanges [.cell b addr, .diags] s
      ((s.setCells b ((s.cells b).write addr v)).warnRomWrite b addr v) := by
  intro p hp
  cases p with
  | diags => simp at hp
  | cell b' addr' =>
    have hother : ¬ (b' = b ∧ addr' = addr) := by simpa using hp
    exact (byteAt_bankWrite s).trans (if_neg hother)
  | _ => simp [Part.Same]

/-- Settles O44: one bound for both banks, so the two cases of the read. -/
theorem bankReadIsBoundsChecked : Obligations.BankReadIsBoundsChecked := fun _ _ s =>
  ⟨fun h => bankRead_ok s (lt_bankSize_iff.mpr h),
    fun h => bankRead_error s (bankSize_le_iff.mpr h)⟩

/-- Settles O45: the state `bankWrite_ok` gives is the witness; its byte, its diagnostics and its frame
are read off the laws of a bank write. -/
theorem bankWriteSetsOneByte : Obligations.BankWriteSetsOneByte := by
  intro b addr v s
  refine ⟨fun h => ⟨_, bankWrite_ok s (lt_bankSize_iff.mpr h), ?byte, ?diags,
    onlyChanges_bankWrite b addr v s⟩, fun h => bankWrite_error s (bankSize_le_iff.mpr h)⟩
  case byte => exact (byteAt_bankWrite s).trans (if_pos ⟨rfl, rfl⟩)
  case diags => simp

end Sys2Proof.Machine
end

