-- ==== Sys2Proof/Proofs/HaltSentinel.lean ====
section
/-! The halt sentinel (spec/30_encoding.md R75): opcode 0 is split between the zero word and STORE. -/

namespace Sys2Proof

/-- The rows below HALT never answer HALT: the sentinel test of `decodeWord` is its only source. -/
theorem decodeOpcode_ne_halt (n : Nat) (w : Word) : decodeOpcode n w ≠ .ok .halt := by
  unfold decodeOpcode
  split <;> nofun

theorem decodeWord_eq_halt_iff (w : Word) : decodeWord w = .ok .halt ↔ w = 0 := by
  constructor
  · intro h
    by_contra hw
    rw [decodeWord, if_neg hw] at h
    exact decodeOpcode_ne_halt _ w h
  · rintro rfl
    rfl

/-- The register nibble and the immediate of format `RI`, as the word's own number truncated. -/
theorem fieldX_eq_ofNat (w : Word) : fieldX w = BitVec.ofNat 4 (w.toNat / 256) :=
  BitVec.eq_of_toNat_eq (by simp)

theorem fieldImm8_eq_ofNat (w : Word) : fieldImm8 w = BitVec.ofNat 8 w.toNat :=
  BitVec.eq_of_toNat_eq (by simp)

/-- A nonzero word of opcode 0 passes the sentinel and decodes by row 0. -/
theorem decodeWord_of_opcode_zero {w : Word} (hw : w ≠ 0) (hop : w.toNat / 4096 = 0) :
    decodeWord w = .ok (.store (fieldX w) (fieldImm8 w)) :=
  have hpos : 0 < w.toNat := Nat.pos_of_ne_zero (BitVec.toNat_ne.mp hw)
  decodeWord_of_opcode hpos hop rfl

/-- Settles O4: HALT by the sentinel test alone, STORE by row 0; the two named words are instances of
the STORE clause. -/
theorem zeroWordAloneIsHalt : Obligations.ZeroWordAloneIsHalt := by
  have store_of_ne_zero (w : Word) (hw : w ≠ 0) (hop : w.toNat / 4096 = 0) :
      decodeWord w
        = .ok (.store (BitVec.ofNat 4 (w.toNat / 256)) (BitVec.ofNat 8 w.toNat)) := by
    rw [decodeWord_of_opcode_zero hw hop, fieldX_eq_ofNat, fieldImm8_eq_ofNat]
  exact ⟨decodeWord_eq_halt_iff, store_of_ne_zero,
    store_of_ne_zero 0x0100 (by decide) (by decide),
    store_of_ne_zero 0x0001 (by decide) (by decide)⟩

end Sys2Proof
end

