-- ==== Sys2Proof/Proofs/RunControl.lean ====
section
/-! Run control (spec/40_execution_cycle.md section 2): the frame of a change of run state, and the
obligation about `stop()`. -/

namespace Sys2Proof.Machine

/-- The frame of setting the run state: every part but RS is the same. -/
theorem onlyChanges_setRunState (s : State) (r : RunState) :
    OnlyChanges [.rs] s (s.setRunState r) := by
  intro p hp
  cases p with
  | rs => simp at hp
  | _ => simp [Part.Same]

/-- Setting the run state a machine already has gives the same state, not only the same parts. -/
theorem setRunState_of_rs_eq {s : State} {r : RunState} (h : s.rs = r) : s.setRunState r = s := by
  subst h
  rfl

theorem serve_stop (s : State) : serve .stop s = .next s.stop := rfl

/-- Settles O52: `stop()` is the setting of the run state to Stopped, so its frame and its no-op case are
those of `setRunState`. -/
theorem stopOnlyStops : Obligations.StopOnlyStops := fun s =>
  ⟨s.stop, serve_stop s, s.stop_rs, onlyChanges_setRunState s .stopped, setRunState_of_rs_eq⟩

end Sys2Proof.Machine
end

