-- ==== Sys2Proof/Proofs/StoreImmediate.lean ====
section
/-! STORE (spec/41_register_arith.md R130): its canonical word decodes back to it, the frame of an
instruction that writes one register and advances, and the fault of a bad register field. -/

namespace Sys2Proof

theorem encode_store_toNat (rX : Nibble) (imm8 : Byte) :
    (encode (.store rX imm8)).toNat = rX.toNat * 256 + imm8.toNat := by
  have hX := rX.isLt
  have hImm := imm8.isLt
  simp only [encode, wordOf_toNat]
  omega

/-- Only `STORE r0, 0` has the halt sentinel for its canonical word (R75, R81). -/
theorem encode_store_eq_zero_iff {rX : Nibble} {imm8 : Byte} :
    encode (.store rX imm8) = 0 ↔ rX = 0 ∧ imm8 = 0 := by
  simp only [← BitVec.toNat_inj, encode_store_toNat, BitVec.ofNat_eq_ofNat, BitVec.toNat_zero]
  omega

/-- Every other STORE is what its canonical word decodes to: the fields are the quotient and the
remainder of the word by 256. -/
theorem decodeWord_encode_store {rX : Nibble} {imm8 : Byte} (h : rX ≠ 0 ∨ imm8 ≠ 0) :
    decodeWord (encode (.store rX imm8)) = .ok (.store rX imm8) := by
  have hX := rX.isLt
  have hImm := imm8.isLt
  have hne : encode (.store rX imm8) ≠ 0 := by
    rwa [Ne, encode_store_eq_zero_iff, not_and_or]
  have hop : (encode (.store rX imm8)).toNat / 4096 = 0 := by
    rw [encode_store_toNat]
    omega
  have hfieldX : fieldX (encode (.store rX imm8)) = rX := by
    apply BitVec.eq_of_toNat_eq
    rw [fieldX_toNat, encode_store_toNat]
    omega
  have hfieldImm8 : fieldImm8 (encode (.store rX imm8)) = imm8 := by
    apply BitVec.eq_of_toNat_eq
    rw [fieldImm8_toNat, encode_store_toNat]
    omega
  rw [decodeWord_of_opcode_zero hne hop, hfieldX, hfieldImm8]

end Sys2Proof

namespace Sys2Proof.Machine

/-- The frame of an instruction that writes one register and advances. -/
theorem onlyChanges_setReg_advance (s : State) (i : Fin 8) (v : Byte) :
    OnlyChanges [.reg i, .pc] s (s.setReg i v).advance := by
  intro p hp
  cases p with
  | reg j =>
    have hji : j ≠ i := by simpa using hp
    exact (s.reg_setReg i j v).trans (if_neg hji)
  | pc => simp at hp
  | _ => simp [Part.Same]

/-- The first register field above 7 is the fault taken (R77, the spec's D7). -/
theorem takesFault_of_firstBadField {ins : Instr} {f : RegField} {n : Nibble} (s : State)
    (h : firstBadField ins = some (f, n)) : TakesFault ins s (.registerIndexOutOfRange f n) :=
  ⟨_, exec_badField s h, faultedWith_raise s _⟩

/-- Settles O15: the encoding is `decodeWord_encode_store`; a field below 8 names a register, so
`exec_store` gives the state that is left; rX is STORE's only register field, so above 7 it is the
first bad one. -/
theorem storeLoadsTheImmediate : Obligations.StoreLoadsTheImmediate := by
  intro rX imm8 s
  refine ⟨decodeWord_encode_store, (decodeWord_eq_halt_iff 0).mpr rfl, ?effect, ?fault⟩
  case effect =>
    intro i hi
    obtain rfl := eq_regNo hi
    exact ⟨_, exec_store s i imm8, s.reg_setReg_self i imm8, rfl,
      onlyChanges_setReg_advance s i imm8⟩
  case fault =>
    intro h
    exact takesFault_of_firstBadField s (by simp [firstBadField, registerFields, h])

end Sys2Proof.Machine
end

