-- ==== Sys2Proof/Proofs/AddressAndBank.lean ====
section
/-! SET_ADDRESS and SWITCH_MEMORY (spec/42_memory_access.md R150, R151): words made of an opcode and
twelve more bits, frames composed of the frames of single updates, and the two obligations. -/

namespace Sys2Proof

/-- The number of a word made of an opcode and twelve more bits: nothing is truncated. -/
theorem wordOf_opcode_add_toNat {op : Nat} (hop : op < 16) (low : Addr) :
    (wordOf (op * 4096 + low.toNat)).toNat = op * 4096 + low.toNat := by
  have hlow := low.isLt
  rw [wordOf_toNat]
  omega

/-- Such a word is decoded by the row of its opcode, whatever the other bits are. -/
theorem decodeWord_wordOf_opcode_add {op : Nat} (hpos : 0 < op) (hop : op < 16) (low : Addr)
    {i : Instr} (hrow : decodeOpcode op (wordOf (op * 4096 + low.toNat)) = .ok i) :
    decodeWord (wordOf (op * 4096 + low.toNat)) = .ok i := by
  have hlow := low.isLt
  have hw := wordOf_opcode_add_toNat hop low
  exact decodeWord_of_opcode (by omega) (by omega) hrow

/-- The address field of such a word is its low twelve bits. -/
theorem fieldAddr12_wordOf_opcode_add {op : Nat} (hop : op < 16) (low : Addr) :
    fieldAddr12 (wordOf (op * 4096 + low.toNat)) = low := by
  have hlow := low.isLt
  apply BitVec.eq_of_toNat_eq
  rw [fieldAddr12_toNat, wordOf_opcode_add_toNat hop]
  omega

theorem decodeWord_setAddress (addr12 : Addr) :
    decodeWord (wordOf (0xA * 4096 + addr12.toNat)) = .ok (.setAddress addr12) := by
  apply decodeWord_wordOf_opcode_add (by decide) (by decide)
  rw [decodeOpcode, fieldAddr12_wordOf_opcode_add (by decide)]

theorem decodeWord_switchMemory (low : Addr) :
    decodeWord (wordOf (0x7 * 4096 + low.toNat)) = .ok .switchMemory :=
  decodeWord_wordOf_opcode_add (by decide) (by decide) low rfl

end Sys2Proof

namespace Sys2Proof.Machine

/-! ### Frames of updates made one after another -/

theorem Part.Same.trans {s t u : State} {p : Part} (hst : p.Same s t) (htu : p.Same t u) :
    p.Same s u := by
  cases p <;> exact Eq.trans htu hst

/-- Two updates in a row change only what the first or the second may change. -/
theorem OnlyChanges.trans {ps qs : List Part} {s t u : State} (hst : OnlyChanges ps s t)
    (htu : OnlyChanges qs t u) : OnlyChanges (ps ++ qs) s u := by
  intro p hp
  obtain ⟨hps, hqs⟩ := not_or.mp (mt List.mem_append.mpr hp)
  exact (hst p hps).trans (htu p hqs)

theorem onlyChanges_advance (s : State) : OnlyChanges [.pc] s s.advance := by
  intro p hp
  cases p with
  | pc => simp at hp
  | _ => simp [Part.Same]

theorem onlyChanges_setAddr (s : State) (addr : Addr) : OnlyChanges [.a] s (s.setAddr addr) := by
  intro p hp
  cases p with
  | a => simp at hp
  | _ => simp [Part.Same]

theorem onlyChanges_setBank (s : State) (b : Bank) : OnlyChanges [.m] s (s.setBank b) := by
  intro p hp
  cases p with
  | m => simp at hp
  | _ => simp [Part.Same]

/-! ### The two banks -/

/-- There are two banks, so the other bank's other bank is the first again. -/
@[simp] theorem Bank.other_other (b : Bank) : b.other.other = b := by
  cases b <;> rfl

/-! ### The obligations -/

/-- Settles O19: no bit of the address is lost in the word, and the state left is A set, then pc
advanced, so its frame is the two updates' frames together. -/
theorem setAddressLoadsTheAddressRegister : Obligations.SetAddressLoadsTheAddressRegister :=
  fun addr12 s => ⟨decodeWord_setAddress addr12, _, exec_setAddress s addr12, rfl, rfl,
    (onlyChanges_setAddr s addr12).trans (onlyChanges_advance _)⟩

/-- Settles O20: row 7 of the decoder reads no other bit of the word; the state left is the other bank
selected, then pc advanced; the second toggle undoes the first by `Bank.other_other`. -/
theorem switchMemoryTogglesTheBank : Obligations.SwitchMemoryTogglesTheBank := by
  refine ⟨decodeWord_switchMemory, fun s => ⟨_, exec_switchMemory s, rfl, rfl, ?frame, _,
    exec_switchMemory _, ?restored⟩⟩
  case frame => exact (onlyChanges_setBank s s.m.other).trans (onlyChanges_advance _)
  case restored => simp

end Sys2Proof.Machine
end

