-- ==== Sys2Proof/Proofs/Jump.lean ====
section
/-! JUMP (spec/43_control_transfer.md R170): its word decodes back to it, the frame of a set of pc, the
fault of an odd target, and the obligation. -/

namespace Sys2Proof

theorem decodeWord_jump (addr12 : Addr) :
    decodeWord (wordOf (0x5 * 4096 + addr12.toNat)) = .ok (.jump addr12) := by
  apply decodeWord_wordOf_opcode_add (by decide) (by decide)
  rw [decodeOpcode, fieldAddr12_wordOf_opcode_add (by decide)]

end Sys2Proof

namespace Sys2Proof.Machine

theorem onlyChanges_setPc (s : State) (pc : Pc) : OnlyChanges [.pc] s (s.setPc pc) := by
  intro p hp
  cases p with
  | pc => simp at hp
  | _ => simp [Part.Same]

/-- pc is a bit wider than the operand (the spec's D4), so a target loses no bit on its way there. -/
theorem setPc_target_toNat (s : State) (addr12 : Addr) :
    (s.setPc (addr12.setWidth 13)).pc.toNat = addr12.toNat :=
  BitVec.toNat_setWidth_of_le (by decide)

theorem takesFault_jump_odd {addr12 : Addr} (s : State) (h : addr12.toNat % 2 = 1) :
    TakesFault (.jump addr12) s (.oddJumpTarget addr12) :=
  ⟨_, exec_jump_odd s h, faultedWith_raise s _⟩

/-- Settles O24: no bit of the target is lost in the word or on its way to pc; the parity check comes
before the set of pc, so an odd target leaves what a fault leaves. -/
theorem jumpSetsPcToAnEvenTarget : Obligations.JumpSetsPcToAnEvenTarget :=
  fun addr12 s => ⟨decodeWord_jump addr12,
    fun heven => ⟨_, exec_jump s heven, setPc_target_toNat s addr12, onlyChanges_setPc s _⟩,
    fun hodd => takesFault_jump_odd s hodd⟩

end Sys2Proof.Machine
end

