-- ==== Sys2Proof/Proofs/OddProgramCounter.lean ====
section
/-! The parity of pc (spec/60_exceptions.md R211): a step at an odd pc faults, a step at an even pc leaves
it even, and of the host's operations only the pc accessor can write an odd value. -/

namespace Sys2Proof.Machine

/-! ### A step -/

theorem fetchDecode_odd {s : State} (h : s.pc.toNat % 2 = 1) :
    fetchDecode s = .error (.oddProgramCounter s.pc) := by
  simp [fetchDecode, fetch, h]

theorem execute_of_fetchDecode_error {s : State} {c : Cause} (h : fetchDecode s = .error c) :
    execute s = .next (s.raise c) := by
  simp [execute, h]

/-- A step is an instruction's, or takes a fault of the fetch. -/
theorem execute_inv {s t : State} (h : execute s = .next t) :
    (∃ ins, exec ins s = .next t) ∨ ∃ c, t = s.raise c := by
  unfold execute at h
  split at h
  · next ins _ => exact .inl ⟨ins, h⟩
  · next c _ =>
    cases h
    exact .inr ⟨c, rfl⟩

/-! ### Evenness through an instruction and a step -/

/-- Dropping the carry out of 13 bits keeps the parity of a sum. -/
theorem pc_add_even {p q : Pc} (hp : p.toNat % 2 = 0) (hq : q.toNat % 2 = 0) :
    (p + q).toNat % 2 = 0 := by
  rw [BitVec.toNat_add]
  omega

theorem advance_pc_even {s : State} (h : s.pc.toNat % 2 = 0) : s.advance.pc.toNat % 2 = 0 :=
  pc_add_even h rfl

theorem skip_pc_even {s : State} (h : s.pc.toNat % 2 = 0) : s.skip.pc.toNat % 2 = 0 :=
  pc_add_even h rfl

/-- HALT keeps pc, JUMP's target is even, a taken skip adds 4, and every other instruction changes parts
other than pc and then advances. -/
theorem Completes.pc_even {s t : State} {ins : Instr} (h : Completes s ins t)
    (heven : s.pc.toNat % 2 = 0) : t.pc.toNat % 2 = 0 := by
  cases h with
  | halt => exact heven
  | jump addr12 htarget => rwa [setPc_target_toNat]
  | skipEq i j | skipNeq i j =>
    split
    · exact skip_pc_even heven
    · exact advance_pc_even heven
  | _ => exact advance_pc_even (by simpa using heven)

theorem exec_pc_even {ins : Instr} {s t : State} (h : exec ins s = .next t)
    (heven : s.pc.toNat % 2 = 0) : t.pc.toNat % 2 = 0 := by
  rcases exec_inv h with hdone | ⟨c, -, rfl⟩
  · exact hdone.pc_even heven
  · exact heven

theorem execute_pc_even {s t : State} (h : execute s = .next t) (heven : s.pc.toNat % 2 = 0) :
    t.pc.toNat % 2 = 0 := by
  rcases execute_inv h with ⟨ins, hexec⟩ | ⟨c, rfl⟩
  · exact exec_pc_even hexec heven
  · exact heven

/-! ### The host's operations -/

@[simp] theorem State.loadRom_pc (s : State) (image : List Byte) : (s.loadRom image).pc = s.pc := by
  unfold State.loadRom
  split <;> simp

/-- Beside a direct `execute()`, the operations that write pc are `start()` and the pc accessor. -/
theorem Served.pc_cases {s t : State} {op : HostOp} (h : Served s op t) :
    t.pc = s.pc ∨ (op = .start ∧ t.pc = 0) ∨ ∃ v, op = .setPc v ∧ t.pc = v.setWidth 13 := by
  cases h with
  | start => exact .inr (.inl ⟨rfl, rfl⟩)
  | setPc v => exact .inr (.inr ⟨v, rfl, rfl⟩)
  | load image => exact .inl (s.loadRom_pc image)
  | _ => exact .inl rfl

/-- An operation that turns an even pc odd is a write of an odd value through the pc accessor. -/
theorem Served.setPc_of_pc_odd {s t : State} {op : HostOp} (h : Served s op t)
    (heven : s.pc.toNat % 2 = 0) (hodd : t.pc.toNat % 2 = 1) :
    ∃ v : Addr, v.toNat % 2 = 1 ∧ op = .setPc v := by
  rcases h.pc_cases with hpc | ⟨-, hpc⟩ | ⟨v, hop, hpc⟩ <;> rw [hpc] at hodd
  · omega
  · simp at hodd
  · exact ⟨v, by rwa [← setPc_target_toNat s v], hop⟩

/-! ### The obligation -/

/-- Settles O9: the parity test comes before the fetch reads ROM; the ticks that fall and the notes made
before a move leave pc alone, so an odd pc comes from none of the moves that make a step. -/
theorem oddPcFaultsAndNoInstructionMakesOne : Obligations.OddPcFaultsAndNoInstructionMakesOne := by
  refine ⟨fun s hodd => ?fault, fun ins s t => exec_pc_even, fun s t hstep heven hodd => ?host⟩
  case fault =>
    exact ⟨_, execute_of_fetchDecode_error (fetchDecode_odd hodd), faultedWith_raise s _⟩
  case host =>
    have heven' : (s.elapse.setAgenda (nextMove s).2).pc.toNat % 2 = 0 := by simpa using heven
    have not_execute (byHost : Bool) :
        execute ((s.elapse.setAgenda (nextMove s).2).noteStep byHost) ≠ .next t := fun h => by
      have := execute_pc_even h heven'
      omega
    rcases step_inv hstep with ⟨-, -, h⟩ | ⟨-, -, rfl⟩ | ⟨-, h⟩ | ⟨op, hop, hserved⟩
    · exact absurd h (not_execute false)
    · omega
    · exact absurd h (not_execute true)
    · rw [hop]
      obtain ⟨v, hv, rfl⟩ := hserved.setPc_of_pc_odd heven' hodd
      exact ⟨v, hv, rfl⟩

end Sys2Proof.Machine
end

