-- ==== Sys2Proof/Proofs/FaultCauses.lean ====
section
/-! Which instruction takes which fault (spec/60_exceptions.md section 1): an instruction that completes
leaves no Fault diagnostic, so the faults taken are those of the law `FaultsBy`. -/

namespace Sys2Proof.Machine

/-- The diagnostics of an instruction that completes are HALT's event and the warnings of ROM writes. -/
theorem Completes.fault_notMem_diags {s t : State} {ins : Instr} (h : Completes s ins t) (c : Cause) :
    .fault c ∉ t.diags.drop s.diags.length := by
  cases h with
  | write i | bcd i => by_cases hm : s.m = .rom <;> simp [hm]
  | skipEq i j | skipNeq i j => split <;> simp
  | _ => simp

/-- An instruction takes exactly the faults the law of `exec` lists for it. -/
theorem takesFault_iff_faultsBy {ins : Instr} {s : State} {c : Cause} :
    TakesFault ins s c ↔ FaultsBy s ins c := by
  constructor
  · rintro ⟨t, hexec, -, hdiags, -⟩
    rcases exec_inv hexec with hdone | ⟨c', hfault, rfl⟩
    · exact absurd (by simp [hdiags]) (hdone.fault_notMem_diags c)
    · obtain rfl : c' = c := by simpa using hdiags
      exact hfault
  · exact fun h => ⟨_, exec_of_faultsBy h, faultedWith_raise s c⟩

/-- Settles O34: of the causes an instruction can fault with, only JUMP's parity check gives this one. -/
theorem onlyJumpFaultsOddTarget : Obligations.OnlyJumpFaultsOddTarget := by
  intro ins s target
  rw [takesFault_iff_faultsBy]
  constructor
  · intro h
    cases h with
    | oddJump _ hodd => exact ⟨rfl, hodd⟩
  · rintro ⟨rfl, hodd⟩
    exact .oddJump target hodd

end Sys2Proof.Machine
end

