-- ==== Sys2Proof/Proofs/Tick.lean ====
section
/-! The tick (spec/60_exceptions.md R229): the frame of a set of the timer, and the obligation. -/

namespace Sys2Proof.Machine

theorem onlyChanges_setTimer (s : State) (v : Byte) : OnlyChanges [.t] s (s.setTimer v) := by
  intro p hp
  cases p with
  | t => simp at hp
  | _ => simp [Part.Same]

/-- The natural number subtraction holds the counter at 0. -/
theorem tick_t_toNat (s : State) : s.tick.t.toNat = s.t.toNat - 1 := tickCount_toNat s.t

theorem tick_t_of_zero {s : State} (h : s.t = 0) : s.tick.t = 0 :=
  if_pos h

theorem serve_tick (s : State) : serve .tick s = .next s.tick := rfl

/-- Settles O48: a tick is a set of the timer, so its frame is that of `setTimer`; the host's `tick()` is
served without a look at RS. -/
theorem tickDecrementsAndHoldsAtZero : Obligations.TickDecrementsAndHoldsAtZero := fun s =>
  ⟨fun _ => tick_t_toNat s, tick_t_of_zero, onlyChanges_setTimer s _, serve_tick s⟩

end Sys2Proof.Machine
end

