-- ==== Sys2Proof/Proofs/Encoding.lean ====
section
/-! The encoder and the decoder against each other (spec/30_encoding.md R82): the fields of a word put
together from four nibbles, what each word of the table decodes to whatever its ignored bits hold, and
what the encoder makes of a decoded word. -/

namespace Sys2Proof

/-! ### A word made of an opcode and three nibbles -/

/-- The word R72 draws: the opcode, then three fields of four bits. -/
def nibbleWord (op : Nat) (x y z : Nibble) : Word :=
  wordOf (op * 0x1000 + x.toNat * 0x100 + y.toNat * 0x10 + z.toNat)

section

variable {op : Nat} (x y z : Nibble)

theorem nibbleWord_toNat (hop : op < 16) :
    (nibbleWord op x y z).toNat = op * 4096 + x.toNat * 256 + y.toNat * 16 + z.toNat := by
  have := x.isLt
  have := y.isLt
  have := z.isLt
  rw [nibbleWord, wordOf_toNat]
  omega

@[simp] theorem fieldX_nibbleWord : fieldX (nibbleWord op x y z) = x := by
  apply BitVec.eq_of_toNat_eq
  have := x.isLt
  have := y.isLt
  have := z.isLt
  rw [fieldX_toNat, nibbleWord, wordOf_toNat]
  omega

@[simp] theorem fieldY_nibbleWord : fieldY (nibbleWord op x y z) = y := by
  apply BitVec.eq_of_toNat_eq
  have := y.isLt
  have := z.isLt
  rw [fieldY_toNat, nibbleWord, wordOf_toNat]
  omega

@[simp] theorem fieldZ_nibbleWord : fieldZ (nibbleWord op x y z) = z := by
  apply BitVec.eq_of_toNat_eq
  have := z.isLt
  rw [fieldZ_toNat, nibbleWord, wordOf_toNat]
  omega

/-- Above opcode 0 there is no sentinel: the row of the opcode decodes the word. -/
theorem decodeWord_nibbleWord (hpos : 0 < op) (hop : op < 16) :
    decodeWord (nibbleWord op x y z) = decodeOpcode op (nibbleWord op x y z) := by
  have hw := nibbleWord_toNat x y z hop
  have := x.isLt
  have := y.isLt
  have := z.isLt
  have hne : nibbleWord op x y z ≠ 0 := fun h => by
    rw [h, BitVec.ofNat_eq_ofNat, BitVec.toNat_zero] at hw
    omega
  have hopcode : opcodeOf (nibbleWord op x y z) = op := by
    rw [opcodeOf_eq_div]
    omega
  rw [decodeWord, if_neg hne, hopcode]

/-- A low byte is two nibbles, wherever it is added. -/
theorem exists_nibbles (low : Byte) :
    ∃ y z : Nibble, ∀ n, wordOf (n + low.toNat) = wordOf (n + y.toNat * 0x10 + z.toNat) := by
  refine ⟨BitVec.ofNat 4 (low.toNat / 16), BitVec.ofNat 4 low.toNat, fun n => congrArg wordOf ?_⟩
  have := low.isLt
  simp only [BitVec.toNat_ofNat]
  omega

/-! ### What the words of each row decode to

The nibbles a format ignores are free in these lemmas (R76). -/

theorem decodeWord_add : decodeWord (nibbleWord 0x1 x y z) = .ok (.add x y z) := by
  simp [decodeWord_nibbleWord, decodeOpcode]

theorem decodeWord_sub : decodeWord (nibbleWord 0x2 x y z) = .ok (.sub x y z) := by
  simp [decodeWord_nibbleWord, decodeOpcode]

theorem decodeWord_read : decodeWord (nibbleWord 0x3 x y z) = .ok (.read x) := by
  simp [decodeWord_nibbleWord, decodeOpcode]

theorem decodeWord_write : decodeWord (nibbleWord 0x4 x y z) = .ok (.write x) := by
  simp [decodeWord_nibbleWord, decodeOpcode]

theorem decodeWord_readKeyboard :
    decodeWord (nibbleWord 0x6 x y z) = .ok (.readKeyboard x) := by
  simp [decodeWord_nibbleWord, decodeOpcode]

theorem decodeWord_skipEq : decodeWord (nibbleWord 0x8 x y z) = .ok (.skipEq x y) := by
  simp [decodeWord_nibbleWord, decodeOpcode]

theorem decodeWord_skipNeq : decodeWord (nibbleWord 0x9 x y z) = .ok (.skipNeq x y) := by
  simp [decodeWord_nibbleWord, decodeOpcode]

theorem decodeWord_readTimer : decodeWord (nibbleWord 0xC x y z) = .ok (.readTimer x) := by
  simp [decodeWord_nibbleWord, decodeOpcode]

theorem decodeWord_bcd : decodeWord (nibbleWord 0xD x y z) = .ok (.bcd x) := by
  simp [decodeWord_nibbleWord, decodeOpcode]

theorem decodeWord_toAscii : decodeWord (nibbleWord 0xE x y z) = .ok (.toAscii x y) := by
  simp [decodeWord_nibbleWord, decodeOpcode]

theorem decodeWord_draw : decodeWord (nibbleWord 0xF x y z) = .ok (.draw x y z) := by
  simp [decodeWord_nibbleWord, decodeOpcode]

end

/-- The value of format `I` is the two nibbles above the ignored one. -/
theorem decodeWord_setTimer (val8 : Byte) (low : Nibble) :
    decodeWord (wordOf (0xB000 + val8.toNat * 0x10 + low.toNat)) = .ok (.setTimer val8) := by
  have := val8.isLt
  have := low.isLt
  have hw : (wordOf (0xB000 + val8.toNat * 0x10 + low.toNat)).toNat
      = 0xB000 + val8.toNat * 0x10 + low.toNat := by
    rw [wordOf_toNat]
    omega
  have hval : fieldVal8 (wordOf (0xB000 + val8.toNat * 0x10 + low.toNat)) = val8 := by
    apply BitVec.eq_of_toNat_eq
    rw [fieldVal8_toNat, hw]
    omega
  refine decodeWord_of_opcode (n := 0xB) (by omega) (by omega) ?_
  rw [decodeOpcode, hval]

/-- Settles O1: the canonical word of an instruction is a word of its row, the ignored nibbles zero. -/
theorem decodeOfEncodeIsTheInstruction : Obligations.DecodeOfEncodeIsTheInstruction := by
  intro i hwf
  cases i with
  | halt => rfl
  | store rX imm8 =>
    exact decodeWord_encode_store (by simpa [Instr.wellFormed, imp_iff_not_or] using hwf)
  | add rX rY rZ => exact decodeWord_add rX rY rZ
  | sub rX rY rZ => exact decodeWord_sub rX rY rZ
  | read rX => exact decodeWord_read rX 0 0
  | write rX => exact decodeWord_write rX 0 0
  | jump addr12 => exact decodeWord_jump addr12
  | readKeyboard rX => exact decodeWord_readKeyboard rX 0 0
  | switchMemory => exact decodeWord_switchMemory 0
  | skipEq rX rY => exact decodeWord_skipEq rX rY 0
  | skipNeq rX rY => exact decodeWord_skipNeq rX rY 0
  | setAddress addr12 => exact decodeWord_setAddress addr12
  | setTimer val8 => exact decodeWord_setTimer val8 0
  | readTimer rX => exact decodeWord_readTimer rX 0 0
  | bcd rX => exact decodeWord_bcd rX 0 0
  | toAscii rX rY => exact decodeWord_toAscii rX rY 0
  | draw rX row col => exact decodeWord_draw rX row col

/-! ### What the encoder makes of a decoded word -/

/-- Clearing the low bits of a word rounds its number down to a multiple of a power of two. -/
theorem toNat_and_allOnes_shiftLeft (w : Word) (k : Nat) :
    (w &&& BitVec.allOnes 16 <<< k).toNat = w.toNat / 2 ^ k * 2 ^ k := by
  have hlt : w.toNat / 2 ^ k * 2 ^ k < 2 ^ 16 := lt_of_le_of_lt (Nat.div_mul_le_self _ _) w.isLt
  rw [← BitVec.shiftLeft_ushiftRight, BitVec.toNat_shiftLeft, BitVec.toNat_ushiftRight,
    Nat.shiftRight_eq_div_pow, Nat.shiftLeft_eq, Nat.mod_eq_of_lt hlt]

/-- Each row of R74 puts back every bit its format uses. -/
theorem encode_of_decodeOpcode {w : Word} {i : Instr} {op : Nat} (hop : w.toNat / 4096 = op)
    (h : decodeOpcode op w = .ok i) : encode i = w &&& usedBits op := by
  have hw := w.isLt
  have used16 : (w &&& 0xFFFF#16).toNat = w.toNat := by
    simpa using toNat_and_allOnes_shiftLeft w 0
  have used12 : (w &&& 0xFFF0#16).toNat = w.toNat / 16 * 16 := toNat_and_allOnes_shiftLeft w 4
  have used8 : (w &&& 0xFF00#16).toNat = w.toNat / 256 * 256 := toNat_and_allOnes_shiftLeft w 8
  have used4 : (w &&& 0xF000#16).toNat = w.toNat / 4096 * 4096 := toNat_and_allOnes_shiftLeft w 12
  unfold decodeOpcode at h
  apply BitVec.eq_of_toNat_eq
  split at h <;> cases h <;>
    simp only [encode, usedBits, wordOf_toNat, fieldX_toNat, fieldY_toNat, fieldZ_toNat,
      fieldImm8_toNat, fieldVal8_toNat, fieldAddr12_toNat, used16, used12, used8, used4] <;>
    omega

theorem opcode_of_decodeOpcode {w : Word} {i : Instr} {op : Nat} (h : decodeOpcode op w = .ok i) :
    i.opcode = op := by
  unfold decodeOpcode at h
  split at h <;> cases h <;> rfl

/-- The one instruction without an encoding would be the row of the zero word, which is the sentinel. -/
theorem wellFormed_of_decodeOpcode {w : Word} {i : Instr} (hw : w ≠ 0)
    (h : decodeOpcode (opcodeOf w) w = .ok i) : i.wellFormed = true := by
  cases i with
  | store rX imm8 =>
    have hop : 0 = opcodeOf w := opcode_of_decodeOpcode h
    have hrow := encode_of_decodeOpcode (opcodeOf_eq_div w).symm h
    have hcode : encode (.store rX imm8) = w := by
      rw [hrow, ← hop]
      exact BitVec.and_allOnes
    have hfields : ¬ rX = 0 ∨ ¬ imm8 = 0 := by
      rwa [← not_and_or, ← encode_store_eq_zero_iff, hcode]
    simpa [Instr.wellFormed] using hfields
  | _ => rfl

/-- Settles O2: the zero word has no bit to clear; any other word goes through its row. -/
theorem encodeOfDecodeClearsIgnoredBits : Obligations.EncodeOfDecodeClearsIgnoredBits := by
  intro w i h
  by_cases hw : w = 0
  · subst hw
    cases h
    exact ⟨rfl, rfl⟩
  · rw [decodeWord, if_neg hw] at h
    exact ⟨wellFormed_of_decodeOpcode hw h, encode_of_decodeOpcode (opcodeOf_eq_div w).symm h⟩

/-- Settles O3: the opcode of a word is below 16, so some row takes it. -/
theorem everyWordDecodesByItsOpcode : Obligations.EveryWordDecodesByItsOpcode := by
  intro w
  by_cases hw : w = 0
  · subst hw
    exact ⟨.halt, rfl, rfl⟩
  · have hlt : w.toNat / 4096 < 16 := by
      have := w.isLt
      omega
    rw [decodeWord, if_neg hw, opcodeOf_eq_div]
    generalize w.toNat / 4096 = op at hlt
    interval_cases op <;> exact ⟨_, rfl, rfl⟩

/-- Settles O5: both words decode; their canonical words are the bits they agree on, and a canonical
word has one instruction. -/
theorem ignoredBitsDoNotMatter : Obligations.IgnoredBitsDoNotMatter := by
  intro w v hop hbits
  obtain ⟨i, hi, -⟩ := everyWordDecodesByItsOpcode w
  obtain ⟨j, hj, -⟩ := everyWordDecodesByItsOpcode v
  obtain ⟨hiwf, hiw⟩ := encodeOfDecodeClearsIgnoredBits w i hi
  obtain ⟨hjwf, hjv⟩ := encodeOfDecodeClearsIgnoredBits v j hj
  have hcode : encode i = encode j := by rw [hiw, hjv, hbits, hop]
  have hij : (.ok i : Except UnknownOpcode Instr) = .ok j := by
    rw [← decodeOfEncodeIsTheInstruction i hiwf, hcode, decodeOfEncodeIsTheInstruction j hjwf]
  rw [hi, hij, ← hj]

theorem decode_two_bytes (w : Word) (rest : List Byte) {i : Instr} (h : decodeWord w = .ok i) :
    decode (highByte w :: lowByte w :: rest) = .ok (i, rest) := by
  simp [decode, h]

/-- Settles O6: a word is its high byte before its low byte. -/
theorem decoderReadsHighByteFirst : Obligations.DecoderReadsHighByteFirst := by
  refine ⟨fun i rest hwf => ?decodes, fun i => ?bytes, fun bytes hshort => ?short⟩
  case decodes => exact decode_two_bytes _ rest (decodeOfEncodeIsTheInstruction i hwf)
  case bytes => simp [encodeBytes]
  case short =>
    match bytes with
    | [] => rfl
    | [_] => rfl
    | _ :: _ :: _ => simp at hshort

/-- Settles O7: nine closed words, which the decoder evaluates. -/
theorem sampleWordsDecode : Obligations.SampleWordsDecode :=
  ⟨rfl, rfl, rfl, rfl, rfl, rfl, rfl, rfl, rfl⟩

end Sys2Proof
end

