-- ==== Sys2Proof/Proofs/Fetch.lean ====
section
/-! The fetch and the step (spec/40_execution_cycle.md R104, R105): what a fetch answers at each pc, the
step that follows it, and the obligations about a step that runs one known word. -/

namespace Sys2Proof.Machine

/-! ### The fetch -/

/-- The word at an address of ROM, the high byte first (spec/20_memory.md R47). -/
def State.romWord (s : State) (addr : Nat) : Word := s.byteAt .rom addr ++ s.byteAt .rom (addr + 1)

/-- A fetch accepts the value of pc (R105). -/
def Fetchable (pc : Pc) : Prop := pc.toNat % 2 = 0 ∧ pc.toNat ≤ 4094

theorem fetch_ok {s : State} (h : Fetchable s.pc) : fetch s = .ok (s.romWord s.pc.toNat) := by
  obtain ⟨heven, hle⟩ := h
  have hhi : s.pc.toNat < Config.bankSize := lt_bankSize_iff.mpr (by omega)
  have hlo : s.pc.toNat + 1 < Config.bankSize := lt_bankSize_iff.mpr (by omega)
  rw [fetch, if_neg (by omega), if_neg (by omega), fetch16, bankRead_ok s hhi, ok_bind,
    bankRead_ok s hlo, ok_bind, State.romWord]

theorem fetch_past_top {s : State} (heven : s.pc.toNat % 2 = 0) (hpast : 4094 < s.pc.toNat) :
    fetch s = .error (.outOfBoundsFetch s.pc) := by
  rw [fetch, if_neg (by omega), if_pos (by omega)]

theorem fetchDecode_past_top {s : State} (heven : s.pc.toNat % 2 = 0)
    (hpast : 4094 < s.pc.toNat) : fetchDecode s = .error (.outOfBoundsFetch s.pc) := by
  rw [fetchDecode, fetch_past_top heven hpast, error_bind]

theorem fetchDecode_ok {s : State} {i : Instr} (h : Fetchable s.pc)
    (hdec : decodeWord (s.romWord s.pc.toNat) = .ok i) : fetchDecode s = .ok i := by
  rw [fetchDecode, fetch_ok h, ok_bind, hdec]

/-- What is fetched and decoded stood at a pc the fetch accepts. -/
theorem fetchable_of_fetchDecode {s : State} {i : Instr} (h : fetchDecode s = .ok i) :
    Fetchable s.pc := by
  rcases Nat.mod_two_eq_zero_or_one s.pc.toNat with heven | hodd
  · by_contra hbad
    have hpast : 4094 < s.pc.toNat := by
      unfold Fetchable at hbad
      omega
    rw [fetchDecode_past_top heven hpast] at h
    cases h
  · rw [fetchDecode_odd hodd] at h
    cases h

/-! ### The step -/

theorem execute_ok {s : State} {i : Instr} (h : Fetchable s.pc)
    (hdec : decodeWord (s.romWord s.pc.toNat) = .ok i) : execute s = exec i s := by
  rw [execute, fetchDecode_ok h hdec]

@[simp] theorem State.romWord_setAgenda (s : State) (ms : List Move) (addr : Nat) :
    (s.setAgenda ms).romWord addr = s.romWord addr := by
  simp [State.romWord]

@[simp] theorem State.romWord_noteStep (s : State) (byHost : Bool) (addr : Nat) :
    (s.noteStep byHost).romWord addr = s.romWord addr := by
  simp [State.romWord]

@[simp] theorem State.romWord_elapse (s : State) (addr : Nat) :
    s.elapse.romWord addr = s.romWord addr := by
  simp [State.romWord]

theorem nextMove_of_agenda_nil {s : State} (h : s.agenda = []) : nextMove s = (.clock, []) := by
  rw [nextMove, h]

theorem nextMove_of_agenda_cons {s : State} {mv : Move} {rest : List Move}
    (h : s.agenda = mv :: rest) : nextMove s = (mv, rest) := by
  rw [nextMove, h]

/-- Setting the agenda a state already has gives the same state. -/
theorem setAgenda_of_agenda_eq {s : State} {ms : List Move} (h : s.agenda = ms) :
    s.setAgenda ms = s := by
  subst h
  rfl

theorem step_clock_running {s : State} (hmv : (nextMove s).1 = .clock) (hrs : s.rs = .running) :
    step s = execute ((s.elapse.setAgenda (nextMove s).2).noteStep false) := by
  simp [step, hmv, perform, clockFires, hrs]

theorem step_host {s : State} {op : HostOp} (hmv : (nextMove s).1 = .host op) :
    step s = serve op (s.elapse.setAgenda (nextMove s).2) := by
  rw [step, hmv, perform]

/-- A firing of the instruction clock runs the instruction at pc, the ticks and the note of who steps
aside. -/
theorem step_clock_ok {s : State} {i : Instr} (hmv : (nextMove s).1 = .clock)
    (hrs : s.rs = .running) (h : Fetchable s.pc)
    (hdec : decodeWord (s.romWord s.pc.toNat) = .ok i) :
    step s = exec i ((s.elapse.setAgenda (nextMove s).2).noteStep false) := by
  rw [step_clock_running hmv hrs, execute_ok (by simpa using h) (by simpa using hdec)]

theorem step_execute_ok {s : State} {i : Instr} (hmv : (nextMove s).1 = .host .execute)
    (h : Fetchable s.pc) (hdec : decodeWord (s.romWord s.pc.toNat) = .ok i) :
    step s = exec i ((s.elapse.setAgenda (nextMove s).2).noteStep true) := by
  rw [step_host hmv, serve, execute_ok (by simpa using h) (by simpa using hdec)]

/-- With no move left on the agenda the clock fires, and the agenda stays empty. -/
theorem step_idle_ok {s : State} {i : Instr} (hagenda : s.agenda = []) (hrs : s.rs = .running)
    (h : Fetchable s.pc) (hdec : decodeWord (s.romWord s.pc.toNat) = .ok i) :
    step s = exec i (s.elapse.noteStep false) := by
  have hmv := nextMove_of_agenda_nil hagenda
  rw [step_clock_ok (by rw [hmv]) hrs h hdec, hmv,
    setAgenda_of_agenda_eq (s.elapse_agenda.trans hagenda)]

/-! ### Frames -/

/-- A longer list of parts is a weaker frame. -/
theorem OnlyChanges.mono {ps qs : List Part} {s t : State} (h : OnlyChanges ps s t)
    (hsub : ps ⊆ qs) : OnlyChanges qs s t :=
  fun p hp => h p fun hps => hp (hsub hps)

theorem onlyChanges_elapse (s : State) : OnlyChanges [.t, .tickDraws] s s.elapse := by
  intro p hp
  cases p with
  | t | tickDraws => simp at hp
  | _ => simp [Part.Same]

theorem onlyChanges_noteStep (s : State) (byHost : Bool) :
    OnlyChanges [.hostStepped] s (s.noteStep byHost) := by
  intro p hp
  cases p with
  | hostStepped => simp at hp
  | _ => simp [Part.Same]

theorem onlyChanges_emit (s : State) (d : Diag) : OnlyChanges [.diags] s (s.emit d) := by
  intro p hp
  cases p with
  | diags => simp at hp
  | _ => simp [Part.Same]

/-! ### The obligations -/

/-- Settles O8: both kinds of step fetch what stands at pc, which neither the ticks, the agenda nor the
note of who steps can change. -/
theorem stepRunsTheDecodedInstruction : Obligations.StepRunsTheDecodedInstruction := by
  intro s i heven hle hdec
  refine ⟨fun hagenda hrs => step_idle_ok hagenda hrs ⟨heven, hle⟩ hdec,
    fun rest hagenda hrs => ?clock, fun rest hagenda => ?direct, onlyChanges_elapse s,
    onlyChanges_noteStep s⟩
  case clock =>
    have hmv := nextMove_of_agenda_cons hagenda
    rw [step_clock_ok (by rw [hmv]) hrs ⟨heven, hle⟩ hdec, hmv]
  case direct =>
    have hmv := nextMove_of_agenda_cons hagenda
    rw [step_execute_ok (by rw [hmv]) ⟨heven, hle⟩ hdec, hmv]

/-- Settles O10: the bound is tested before ROM is read, and a fault keeps pc. -/
theorem fetchPastTheTopOfRomFaults : Obligations.FetchPastTheTopOfRomFaults := fun s heven hpast =>
  ⟨_, execute_of_fetchDecode_error (fetchDecode_past_top heven hpast), faultedWith_raise s _⟩

/-- Settles O11: at a pc the fetch accepts it reads two bytes of ROM; at any other it reads none. -/
theorem fetchDependsOnPcAndRomAlone : Obligations.FetchDependsOnPcAndRomAlone := by
  intro s s' hpc hrom
  have hfetch : fetch s' = fetch s := by
    simp only [fetch, fetch16, bankRead, hpc, hrom]
  rw [fetchDecode, fetchDecode, hfetch]

/-- Settles O12: the two bytes of the word fetched at p are those the store left at p and p + 1. -/
theorem writtenCodeIsFetched : Obligations.WrittenCodeIsFetched := by
  intro s i p hm heven hle
  refine ⟨_, exec_write s i, fun ha => ?high, fun ha => ?low⟩ <;>
    rw [fetch_ok (by exact ⟨heven, hle⟩)] <;>
    simp [State.romWord, State.byteAt_stored, hm, State.dataAddress, ha]

/-! ### The placed word -/

/-- After `placeWord` the machine is about to fetch that word. -/
theorem fetchable_placeWord (s : State) (w : Word) : Fetchable (s.placeWord w).pc := by
  show Fetchable (if s.pc.toNat % 2 = 0 ∧ s.pc.toNat ≤ 4094 then s.pc else 0)
  split
  · assumption
  · exact ⟨rfl, by decide⟩

theorem romWord_placeWord (s : State) (w : Word) :
    (s.placeWord w).romWord (s.placeWord w).pc.toNat = w := by
  simp [State.romWord, State.byteAt, State.placeWord, Memory.read_write]

theorem withFetchWord_eq_placeWord (s : State) (w : Word) :
    s.withFetchWord 16 w.toNat = s.placeWord w := by
  simp [State.withFetchWord, Nat.mod_eq_of_lt w.isLt]

/-- Settles O13: the placed machine runs, has no host operation to serve and holds the word at pc. -/
theorem placedWordRunsNext : Obligations.PlacedWordRunsNext := by
  intro s w i hdec
  rw [withFetchWord_eq_placeWord]
  refine ⟨step_idle_ok rfl rfl (fetchable_placeWord s w) (by rwa [romWord_placeWord]), ?_⟩
  have hword : BitVec.ofNat 16 (w.toNat % 2 ^ 16) = w := by simp [Nat.mod_eq_of_lt w.isLt]
  simp only [decodeTableWord, hword, decode_two_bytes w [] hdec]

/-! ### HALT -/

theorem onlyChanges_halt (s : State) :
    OnlyChanges [.rs, .diags] s (s.emit (.halt s.pc)).stop :=
  ((onlyChanges_emit s _).trans (onlyChanges_setRunState _ .stopped)).mono (by simp)

theorem onlyChanges_halt_of_stopped {s : State} (h : s.rs = .stopped) :
    OnlyChanges [.diags] s (s.emit (.halt s.pc)).stop := by
  rw [State.stop, setRunState_of_rs_eq (by exact h)]
  exact onlyChanges_emit s _

/-- At two zero bytes the step is HALT's. -/
theorem execute_halt {s : State} (h : Fetchable s.pc) (hhi : s.byteAt .rom s.pc.toNat = 0)
    (hlo : s.byteAt .rom (s.pc.toNat + 1) = 0) :
    execute s = .next (s.emit (.halt s.pc)).stop := by
  have hword : s.romWord s.pc.toNat = 0 := by
    rw [State.romWord, hhi, hlo]
    rfl
  rw [execute_ok h ((decodeWord_eq_halt_iff _).mpr hword), exec_halt]

/-- Settles O14: HALT keeps pc and ROM, so a further step is the same HALT, on a machine that is already
Stopped. -/
theorem haltStopsCleanly : Obligations.HaltStopsCleanly := by
  refine ⟨decodeWord_eq_halt_iff,
    fun s => ⟨_, exec_halt s, rfl, rfl, onlyChanges_halt s⟩, fun s heven hle hhi hlo => ?_⟩
  exact ⟨_, execute_halt ⟨heven, hle⟩ hhi hlo, rfl, rfl, onlyChanges_halt s,
    ⟨_, execute_halt ⟨heven, hle⟩ (by simpa using hhi) (by simpa using hlo), rfl, rfl,
      onlyChanges_halt_of_stopped rfl⟩, _, rfl, rfl⟩

end Sys2Proof.Machine
end

