-- ==== Sys2Proof/Proofs/Invariant.lean ====
section
/-! The invariant of the machine (spec/10_state.md R14, R23, spec/20_memory.md R40): what an instruction
leaves of each of its parts, then every move of every agent; and the power-on state. -/

namespace Sys2Proof.Machine

/-! ### What an instruction leaves of pc, of the banks and of the display -/

/-- From a pc that was fetched at, the sums are those of natural numbers: 13 bits hold them (R14). -/
theorem advance_pc_toNat {s : State} (h : s.pc.toNat ≤ 4094) :
    s.advance.pc.toNat = s.pc.toNat + 2 := by
  have hsum : s.pc.toNat + 2 < 2 ^ 13 := by omega
  exact (BitVec.toNat_add s.pc 2).trans (Nat.mod_eq_of_lt hsum)

theorem skip_pc_toNat {s : State} (h : s.pc.toNat ≤ 4094) :
    s.skip.pc.toNat = s.pc.toNat + 4 := by
  have hsum : s.pc.toNat + 4 < 2 ^ 13 := by omega
  exact (BitVec.toNat_add s.pc 4).trans (Nat.mod_eq_of_lt hsum)

theorem Completes.pc_le {s t : State} {ins : Instr} (h : Completes s ins t)
    (hle : s.pc.toNat ≤ 4094) : t.pc.toNat ≤ 4098 := by
  have hskip := skip_pc_toNat hle
  have hadvance := advance_pc_toNat hle
  cases h with
  | halt => exact hle.trans (by decide)
  | jump addr12 _ =>
    rw [setPc_target_toNat]
    have := addr12.isLt
    omega
  | skipEq i j | skipNeq i j => split <;> omega
  | _ =>
    rw [advance_pc_toNat (by simpa using hle)]
    simpa using hle.trans (by decide : 4094 ≤ 4096)

theorem State.storedDigits_wf {s : State} (v : Byte) (ha : s.a.toNat ≤ 4093) (hrom : s.rom.wf)
    (hram : s.ram.wf) : (s.storedDigits v).rom.wf ∧ (s.storedDigits v).ram.wf := by
  have h0 : s.dataAddress < Config.bankSize := dataAddress_lt s
  have h1 : s.dataAddress + 1 < Config.bankSize :=
    lt_bankSize_iff.mpr (by rw [State.dataAddress]; omega)
  have h2 : s.dataAddress + 2 < Config.bankSize :=
    lt_bankSize_iff.mpr (by rw [State.dataAddress]; omega)
  obtain ⟨hrom, hram⟩ := State.stored_wf (hundreds v) h0 hrom hram
  obtain ⟨hrom, hram⟩ := State.stored_wf (tens v) h1 hrom hram
  exact State.stored_wf (ones v) h2 hrom hram

/-- WRITE and BCD store at addresses inside the bank; no other instruction touches a bank. -/
theorem Completes.banks_wf {s t : State} {ins : Instr} (h : Completes s ins t) (hrom : s.rom.wf)
    (hram : s.ram.wf) : t.rom.wf ∧ t.ram.wf := by
  cases h with
  | write i => exact State.stored_wf _ (dataAddress_lt s) hrom hram
  | bcd i ha => exact State.storedDigits_wf _ ha hrom hram
  | skipEq i j | skipNeq i j => split <;> exact ⟨hrom, hram⟩
  | _ => exact ⟨hrom, hram⟩

/-- An instruction leaves the display alone, or is a DRAW that sets one cell to a code of 7 bits. -/
theorem Completes.display_cases {s t : State} {ins : Instr} (h : Completes s ins t) :
    (t.screen = s.screen ∧ t.displayCalls = s.displayCalls) ∨
    ∃ x y c, c.toNat ≤ 0x7F ∧ t.screen = showCall s.screen (.set x y c) ∧
      t.displayCalls = s.displayCalls ++ [.set x y c, .render] := by
  cases h with
  | draw i j k hc => exact .inr ⟨k, j, s.reg i, hc, rfl, by simp⟩
  | skipEq i j | skipNeq i j => exact .inl (by split <;> simp)
  | _ => exact .inl (by simp)

/-! ### The invariant through one move -/

/-- The banks and the display kept, the invariant asks only for the range of pc. -/
theorem State.Inv.congr {s t : State} (h : s.Inv) (hrom : t.rom = s.rom) (hram : t.ram = s.ram)
    (hcalls : t.displayCalls = s.displayCalls) (hscreen : t.screen = s.screen)
    (hpc : t.pc.toNat ≤ 4098 ∧ (t.pc.toNat % 2 = 1 → t.pc.toNat ≤ 4095)) : t.Inv where
  rom_wf := hrom ▸ h.rom_wf
  ram_wf := hram ▸ h.ram_wf
  pc_range := hpc
  calls_legal := hcalls ▸ h.calls_legal
  screen_shown := by rw [hscreen, hcalls, h.screen_shown]

theorem Completes.keeps_inv {s t : State} {ins : Instr} (h : Completes s ins t) (hs : s.Inv)
    (hpc : Fetchable s.pc) : t.Inv := by
  obtain ⟨heven, hle⟩ := hpc
  obtain ⟨hrom, hram⟩ := h.banks_wf hs.rom_wf hs.ram_wf
  have heven' := h.pc_even heven
  have hpc' : t.pc.toNat ≤ 4098 ∧ (t.pc.toNat % 2 = 1 → t.pc.toNat ≤ 4095) :=
    ⟨h.pc_le hle, by omega⟩
  rcases h.display_cases with ⟨hscreen, hcalls⟩ | ⟨x, y, c, hc, hscreen, hcalls⟩
  · exact ⟨hrom, hram, hpc', hcalls ▸ hs.calls_legal, by rw [hscreen, hcalls, hs.screen_shown]⟩
  · refine ⟨hrom, hram, hpc', fun call hcall => ?_, ?_⟩
    · rw [hcalls, List.mem_append] at hcall
      rcases hcall with hold | hnew
      · exact hs.calls_legal call hold
      · rcases List.mem_pair.mp hnew with rfl | rfl
        · exact hc
        · trivial
    · rw [hscreen, hcalls, hs.screen_shown]
      simp [shown, showCall]

theorem raise_keeps_inv {s : State} (hs : s.Inv) (c : Cause) : (s.raise c).Inv :=
  hs.congr rfl rfl rfl rfl hs.pc_range

/-- The instruction that a step runs stood at a pc the fetch accepts, which is what keeps pc in range. -/
theorem execute_keeps_inv {s t : State} (h : execute s = .next t) (hs : s.Inv) : t.Inv := by
  unfold execute at h
  split at h
  · next ins hfetch =>
    rcases exec_inv h with hdone | ⟨c, -, rfl⟩
    · exact hdone.keeps_inv hs (fetchable_of_fetchDecode hfetch)
    · exact raise_keeps_inv hs c
  · next c _ =>
    cases h
    exact raise_keeps_inv hs c

theorem loadRom_keeps_inv {s : State} (hs : s.Inv) (image : List Byte) : (s.loadRom image).Inv := by
  unfold State.loadRom
  split
  · exact hs.congr rfl rfl rfl rfl hs.pc_range
  · next hsize =>
    exact ⟨Memory.image_wf 0 image (by omega), hs.ram_wf, hs.pc_range, hs.calls_legal,
      hs.screen_shown⟩

theorem Served.keeps_inv {s t : State} {op : HostOp} (h : Served s op t) (hs : s.Inv) : t.Inv := by
  cases h with
  | start => exact hs.congr rfl rfl rfl rfl ⟨by simp, by simp⟩
  | load image _ => exact loadRom_keeps_inv hs image
  | setPc v _ =>
    have hv := v.isLt
    refine hs.congr rfl rfl rfl rfl ?_
    rw [setPc_target_toNat]
    omega
  | _ => exact hs.congr rfl rfl rfl rfl hs.pc_range

/-- Settles O59: the ticks and the notes before a move touch no part of the invariant. -/
theorem everyStepKeepsTheInvariant : Obligations.EveryStepKeepsTheInvariant := by
  intro s t hs hstep
  have hu : (s.elapse.setAgenda (nextMove s).2).Inv :=
    hs.congr (by simp) (by simp) (by simp) (by simp) (by simpa using hs.pc_range)
  have hnote (byHost : Bool) : ((s.elapse.setAgenda (nextMove s).2).noteStep byHost).Inv :=
    hu.congr rfl rfl rfl rfl hu.pc_range
  rcases step_inv hstep with ⟨-, -, h⟩ | ⟨-, -, rfl⟩ | ⟨-, h⟩ | ⟨op, -, hserved⟩
  · exact execute_keeps_inv h (hnote false)
  · exact hu
  · exact execute_keeps_inv h (hnote true)
  · exact hserved.keeps_inv hu

/-! ### Power-on -/

/-- Settles O57: the reset state is closed; a bank without cells reads as 0 at every address. -/
theorem powerOnStateIsAsGiven : Obligations.PowerOnStateIsAsGiven :=
  ⟨rfl, rfl, rfl, rfl, rfl, by decide, fun b _ => by cases b <;> rfl, by decide⟩

/-- Settles O58: no bank has a cell and no call of the display was made. -/
theorem resetMeetsTheInvariant : Obligations.ResetMeetsTheInvariant where
  rom_wf := Memory.wf_nil
  ram_wf := Memory.wf_nil
  pc_range := by decide
  calls_legal := by simp [State.reset]
  screen_shown := rfl

end Sys2Proof.Machine
end

