-- ==== Sys2Proof/Proofs/RegisterArith.lean ====
section
/-! ADD, SUB and TO_ASCII (spec/41_register_arith.md sections 3 to 5): the numbers their results are, the
faults of instructions with one, two and three register fields, and the obligations. -/

namespace Sys2Proof.Machine

/-! ### The results, as numbers -/

theorem addWrap_toNat (a b : Byte) : (addWrap a b).toNat = (a.toNat + b.toNat) % 256 := by
  simp [addWrap]

theorem subWrap_toNat (a b : Byte) : (subWrap a b).toNat = (a.toNat + 256 - b.toNat) % 256 := by
  simp [subWrap]

/-- Every code is below 0x47, so the narrowing to a byte loses nothing. -/
theorem asciiDigit_toNat {v : Byte} (h : v.toNat ≤ 15) :
    (asciiDigit v).toNat = if v.toNat ≤ 9 then 0x30 + v.toNat else 0x41 + (v.toNat - 10) := by
  unfold asciiDigit
  split <;> rw [BitVec.toNat_ofNat] <;> omega

/-! ### The first bad field, by the number of fields (the spec's D7) -/

section

variable {ins : Instr} {rX rY rZ : Nibble} (s : State)

theorem takesFault_oneField (hfields : registerFields ins = [(.rX, rX)]) (hX : 8 ≤ rX.toNat) :
    TakesFault ins s (.registerIndexOutOfRange .rX rX) :=
  takesFault_of_firstBadField s (by simp [firstBadField, hfields, hX])

theorem takesFault_twoFields (hfields : registerFields ins = [(.rX, rX), (.rY, rY)]) :
    (8 ≤ rX.toNat → TakesFault ins s (.registerIndexOutOfRange .rX rX)) ∧
    (rX.toNat < 8 → 8 ≤ rY.toNat → TakesFault ins s (.registerIndexOutOfRange .rY rY)) := by
  refine ⟨fun hX => ?_, fun hX hY => ?_⟩
  · exact takesFault_of_firstBadField s (by simp [firstBadField, hfields, hX])
  · exact takesFault_of_firstBadField s (by simp [firstBadField, hfields, hX, hY])

theorem takesFault_threeFields
    (hfields : registerFields ins = [(.rX, rX), (.rY, rY), (.rZ, rZ)]) :
    (8 ≤ rX.toNat → TakesFault ins s (.registerIndexOutOfRange .rX rX)) ∧
    (rX.toNat < 8 → 8 ≤ rY.toNat → TakesFault ins s (.registerIndexOutOfRange .rY rY)) ∧
    (rX.toNat < 8 → rY.toNat < 8 → 8 ≤ rZ.toNat →
      TakesFault ins s (.registerIndexOutOfRange .rZ rZ)) := by
  refine ⟨fun hX => ?_, fun hX hY => ?_, fun hX hY hZ => ?_⟩
  · exact takesFault_of_firstBadField s (by simp [firstBadField, hfields, hX])
  · exact takesFault_of_firstBadField s (by simp [firstBadField, hfields, hX, hY])
  · exact takesFault_of_firstBadField s (by simp [firstBadField, hfields, hX, hY, hZ])

end

/-! ### The obligations -/

/-- Settles O16: both sources are read before the destination is written, so it does not matter which
registers coincide. -/
theorem addWritesTheSumModulo256 : Obligations.AddWritesTheSumModulo256 := by
  intro rX rY rZ s
  refine ⟨decodeWord_add rX rY rZ, fun i j k hi hj hk => ?effect, takesFault_threeFields s rfl⟩
  case effect =>
    obtain rfl := eq_regNo hi
    obtain rfl := eq_regNo hj
    obtain rfl := eq_regNo hk
    exact ⟨_, exec_add s i j k, by simp [addWrap_toNat], rfl, onlyChanges_setReg_advance s k _⟩

/-- Settles O17: as for ADD, with the difference. -/
theorem subWritesTheDifferenceModulo256 : Obligations.SubWritesTheDifferenceModulo256 := by
  intro rX rY rZ s
  refine ⟨decodeWord_sub rX rY rZ, fun i j k hi hj hk => ?effect, takesFault_threeFields s rfl⟩
  case effect =>
    obtain rfl := eq_regNo hi
    obtain rfl := eq_regNo hj
    obtain rfl := eq_regNo hk
    exact ⟨_, exec_sub s i j k, by simp [subWrap_toNat], rfl, onlyChanges_setReg_advance s k _⟩

/-- Settles O18: the whole register is compared with 15 once both fields are legal. -/
theorem toAsciiWritesTheDigitsCode : Obligations.ToAsciiWritesTheDigitsCode := by
  intro rX rY low s
  refine ⟨decodeWord_toAscii rX rY low, fun i j hi hj hdigit => ?effect,
    fun i j hi hj hbig => ?fault, takesFault_twoFields s rfl⟩
  case effect =>
    obtain rfl := eq_regNo hi
    obtain rfl := eq_regNo hj
    exact ⟨_, exec_toAscii s i j hdigit, by simp [asciiDigit_toNat hdigit], rfl,
      onlyChanges_setReg_advance s j _⟩
  case fault =>
    obtain rfl := eq_regNo hi
    obtain rfl := eq_regNo hj
    exact ⟨_, exec_toAscii_out s i j hbig, faultedWith_raise s _⟩

end Sys2Proof.Machine
end

