-- ==== Sys2Proof/Proofs/MemoryAccess.lean ====
section
/-! READ, WRITE and BCD (spec/42_memory_access.md sections 4 to 6): the frame of a store, the decimal
digits as numbers, and the obligations. -/

namespace Sys2Proof

/-- Words of a format with an ignored low byte, written with that byte whole. -/
theorem decodeWord_low_byte {op : Nat} {rX : Nibble} {i : Instr}
    (h : ∀ y z, decodeWord (nibbleWord op rX y z) = .ok i) (low : Byte) :
    decodeWord (wordOf (op * 0x1000 + rX.toNat * 0x100 + low.toNat)) = .ok i := by
  obtain ⟨y, z, hlow⟩ := exists_nibbles low
  rw [hlow]
  exact h y z

end Sys2Proof

namespace Sys2Proof.Machine

/-! ### The decimal digits -/

theorem hundreds_toNat (v : Byte) : (hundreds v).toNat = v.toNat / 100 := by
  have := v.isLt
  rw [hundreds, BitVec.toNat_ofNat]
  omega

theorem tens_toNat (v : Byte) : (tens v).toNat = v.toNat / 10 % 10 := by
  rw [tens, BitVec.toNat_ofNat]
  omega

theorem ones_toNat (v : Byte) : (ones v).toNat = v.toNat % 10 := by
  rw [ones, BitVec.toNat_ofNat]
  omega

theorem digits_value (v : Byte) :
    (hundreds v).toNat * 100 + (tens v).toNat * 10 + (ones v).toNat = v.toNat := by
  rw [hundreds_toNat, tens_toNat, ones_toNat]
  omega

/-! ### The frames of the stores -/

theorem onlyChanges_stored (s : State) (addr : Nat) (v : Byte) :
    OnlyChanges [.cell s.m addr, .diags] s (s.stored addr v) :=
  onlyChanges_bankWrite s.m addr v s

/-- The first two stores keep M, so all three go to one bank. -/
theorem onlyChanges_storedDigits (s : State) (v : Byte) :
    OnlyChanges [.cell s.m s.dataAddress, .cell s.m (s.dataAddress + 1),
      .cell s.m (s.dataAddress + 2), .diags] s (s.storedDigits v) := by
  have h1 := onlyChanges_stored s s.dataAddress (hundreds v)
  have h2 := onlyChanges_stored (s.stored s.dataAddress (hundreds v)) (s.dataAddress + 1) (tens v)
  have h3 := onlyChanges_stored ((s.stored s.dataAddress (hundreds v)).stored
    (s.dataAddress + 1) (tens v)) (s.dataAddress + 2) (ones v)
  simp only [State.stored_m] at h2 h3
  exact ((h1.trans h2).trans h3).mono (by simp)

/-! ### The obligations -/

/-- Settles O21: A always lies inside the bank, so the read never fails. -/
theorem readLoadsFromTheSelectedBank : Obligations.ReadLoadsFromTheSelectedBank := by
  intro rX low s
  refine ⟨decodeWord_low_byte (decodeWord_read rX) low, fun i hi => ?effect,
    takesFault_oneField s rfl⟩
  case effect =>
    obtain rfl := eq_regNo hi
    exact ⟨_, exec_read s i, by simp [State.dataAddress], rfl, onlyChanges_setReg_advance s i _⟩

/-- Settles O22: the state left is that of one store, then pc advanced. -/
theorem writeStoresToTheSelectedBank : Obligations.WriteStoresToTheSelectedBank := by
  intro rX low s
  refine ⟨decodeWord_low_byte (decodeWord_write rX) low, rfl, fun i hi => ?effect,
    takesFault_oneField s rfl⟩
  case effect =>
    obtain rfl := eq_regNo hi
    exact ⟨_, exec_write s i, by simp [State.byteAt_stored], by simp,
      congrArg (· + 2) (s.stored_pc _ _),
      (onlyChanges_stored s _ _).trans (onlyChanges_advance _)⟩

/-- Settles O23: up to 4093 all three stores are inside the bank; past it the bound is tested before the
first of them. -/
theorem bcdStoresTheDecimalDigits : Obligations.BcdStoresTheDecimalDigits := by
  intro rX low s
  refine ⟨decodeWord_low_byte (decodeWord_bcd rX) low, rfl, fun i hi ha => ?effect,
    fun hX ha => ?fault, takesFault_oneField s rfl⟩
  case effect =>
    obtain rfl := eq_regNo hi
    exact ⟨_, hundreds (s.reg i), tens (s.reg i), ones (s.reg i), exec_bcd s i ha,
      hundreds_toNat _, tens_toNat _, ones_toNat _, digits_value _,
      by simp [State.byteAt_storedDigits], by simp [State.byteAt_storedDigits],
      by simp [State.byteAt_storedDigits], by simp, congrArg (· + 2) (s.storedDigits_pc _),
      (onlyChanges_storedDigits s _).trans (onlyChanges_advance _)⟩
  case fault =>
    obtain ⟨i, rfl⟩ : ∃ i, rX = regNo i := ⟨⟨rX.toNat, hX⟩, eq_regNo rfl⟩
    exact ⟨_, exec_bcd_out s i ha, faultedWith_raise s _⟩

end Sys2Proof.Machine
end

