-- ==== Sys2Proof/Proofs/Skips.lean ====
section
/-! SKIP_EQ and SKIP_NEQ (spec/43_control_transfer.md sections 3 and 4). -/

namespace Sys2Proof.Machine

theorem onlyChanges_skip (s : State) : OnlyChanges [.pc] s s.skip := onlyChanges_setPc s _

/-- Whichever way the test goes, a skip changes pc alone. -/
theorem onlyChanges_skip_or_advance (s : State) (p : Prop) [Decidable p] :
    OnlyChanges [.pc] s (if p then s.skip else s.advance) := by
  split
  · exact onlyChanges_skip s
  · exact onlyChanges_advance s

theorem pc_skip_or_advance (s : State) (p : Prop) [Decidable p] :
    (if p then s.skip else s.advance).pc = if p then s.pc + 4 else s.pc + 2 := by
  split <;> rfl

/-- Settles O25: the test is equality. -/
theorem skipEqSkipsWhenEqual : Obligations.SkipEqSkipsWhenEqual := by
  intro rX rY low s
  refine ⟨decodeWord_skipEq rX rY low, fun i j hi hj => ?effect, takesFault_twoFields s rfl⟩
  case effect =>
    obtain rfl := eq_regNo hi
    obtain rfl := eq_regNo hj
    exact ⟨_, exec_skipEq s i j, pc_skip_or_advance s _, onlyChanges_skip_or_advance s _⟩

/-- Settles O26: the test is inequality. -/
theorem skipNeqSkipsWhenDifferent : Obligations.SkipNeqSkipsWhenDifferent := by
  intro rX rY low s
  refine ⟨decodeWord_skipNeq rX rY low, fun i j hi hj => ?effect, takesFault_twoFields s rfl⟩
  case effect =>
    obtain rfl := eq_regNo hi
    obtain rfl := eq_regNo hj
    exact ⟨_, exec_skipNeq s i j, pc_skip_or_advance s _, onlyChanges_skip_or_advance s _⟩

end Sys2Proof.Machine
end

