-- ==== Sys2Proof/Proofs/TimerIo.lean ====
section
/-! SET_TIMER, READ_TIMER, READ_KEYBOARD and DRAW (spec/44_timer_io.md sections 2 to 5), and the ticks
that keep coming (spec/60_exceptions.md R231, R232). -/

namespace Sys2Proof.Machine

/-! ### Ticks one after another -/

/-- `n` single ticks are one set of the counter, `n` less and held at 0. -/
theorem tick_iterate (n : Nat) (s : State) : State.tick^[n] s = s.setTimer (ticksCount s.t n) := by
  induction n generalizing s with
  | zero => rw [ticksCount_zero]; rfl
  | succ n ih => rw [Function.iterate_succ_apply, ih, ticksCount_succ]; rfl

theorem tick_iterate_t_toNat (n : Nat) (s : State) :
    (State.tick^[n] s).t.toNat = s.t.toNat - n := by
  rw [tick_iterate, State.setTimer_t, ticksCount_toNat]

/-- The ticks that fall before the first `m` of the moves from the `d`-th on. -/
def ticksOver (d m : Nat) : Nat := ∑ k ∈ Finset.range m, ticksBefore (d + k)

theorem ticksOver_succ (d m : Nat) : ticksOver d (m + 1) = ticksOver d m + ticksBefore (d + m) :=
  Finset.sum_range_succ _ _

theorem ticksOver_mono (d : Nat) : Monotone (ticksOver d) :=
  monotone_nat_of_le_succ fun m => by rw [ticksOver_succ]; exact Nat.le_add_right _ _

/-- A tick is forced at some move after any, so enough moves bring any number of ticks. -/
theorem exists_le_ticksOver (d n : Nat) : ∃ m, n ≤ ticksOver d m := by
  induction n with
  | zero => exact ⟨0, Nat.zero_le _⟩
  | succ n ih =>
    obtain ⟨m, hm⟩ := ih
    have hkept : ticksOver d m ≤ ticksOver d (m + Config.tickWait (d + m)) :=
      ticksOver_mono d (Nat.le_add_right _ _)
    have hforced := ticksBefore_forced (d + m)
    rw [Nat.add_assoc] at hforced
    refine ⟨m + Config.tickWait (d + m) + 1, ?_⟩
    rw [ticksOver_succ]
    omega

/-- What `m` moves of a Running machine leave of the counter. -/
theorem elapse_iterate {s : State} (h : s.rs = .running) (m : Nat) :
    (State.elapse^[m] s).rs = .running ∧ (State.elapse^[m] s).tickDraws = s.tickDraws + m ∧
      (State.elapse^[m] s).t.toNat = s.t.toNat - ticksOver s.tickDraws m := by
  induction m with
  | zero => exact ⟨h, rfl, rfl⟩
  | succ m ih =>
    obtain ⟨hrs, hdraws, ht⟩ := ih
    rw [Function.iterate_succ_apply', elapse_running hrs]
    refine ⟨hrs, by simp [hdraws, Nat.add_assoc], ?_⟩
    rw [ticksOver_succ, State.countTickDraw_t, State.setTimer_t, ticksCount_toNat, ht, hdraws,
      Nat.sub_sub]

/-- Settles O49: the free number before a move is that many single ticks, one is forced after any move,
and a counter is at most as far from 0 as some number of moves brings ticks. -/
theorem freeTicksKeepComing : Obligations.FreeTicksKeepComing := by
  refine ⟨fun s hrs => ⟨_, ?single, rfl⟩, fun s => elapse_stopped,
    fun k => ⟨_, Nat.le_add_right k _, ticksBefore_forced k⟩, fun s hrs => ?zero⟩
  case single => rw [elapse_running hrs, tick_iterate]
  case zero =>
    obtain ⟨m, hm⟩ := exists_le_ticksOver s.tickDraws s.t.toNat
    obtain ⟨-, -, ht⟩ := elapse_iterate hrs m
    refine ⟨m, BitVec.eq_of_toNat_eq ?_⟩
    rw [ht, Nat.sub_eq_zero_of_le hm]
    rfl

/-- Settles O27: the counter is set whole, and each tick after that takes one. -/
theorem setTimerLoadsTheCounter : Obligations.SetTimerLoadsTheCounter := fun val8 low s =>
  ⟨decodeWord_setTimer val8 low, _, exec_setTimer s val8, rfl, rfl,
    (onlyChanges_setTimer s val8).trans (onlyChanges_advance _),
    fun n => tick_iterate_t_toNat n (s.setTimer val8).advance⟩

/-- Settles O50: SET_TIMER does not read the counter; the tick reads what it left. -/
theorem tickAndSetTimerSerialise : Obligations.TickAndSetTimerSerialise := fun val8 s =>
  ⟨⟨_, exec_setTimer s.tick val8, rfl⟩,
    _, exec_setTimer s val8, tick_t_toNat (s.setTimer val8).advance⟩

/-- Settles O28: the state left is one register written, then pc advanced, so T is in its frame. -/
theorem readTimerCopiesTheLiveCounter : Obligations.ReadTimerCopiesTheLiveCounter := by
  intro rX low s
  refine ⟨decodeWord_low_byte (decodeWord_readTimer rX) low, fun i hi => ?effect,
    takesFault_oneField s rfl⟩
  case effect =>
    obtain rfl := eq_regNo hi
    exact ⟨_, exec_readTimer s i, by simp, rfl, onlyChanges_setReg_advance s i _⟩

/-! ### The keyboard -/

theorem onlyChanges_countKeyRead (s : State) : OnlyChanges [.keyReads] s s.countKeyRead := by
  intro p hp
  cases p with
  | keyReads => simp at hp
  | _ => simp [Part.Same]

/-- Settles O29: the answer is asked for only once the field is known to be legal. -/
theorem readKeyboardConsumesOneAnswer : Obligations.ReadKeyboardConsumesOneAnswer := by
  intro rX low s
  refine ⟨decodeWord_low_byte (decodeWord_readKeyboard rX) low, fun i hi => ?effect,
    takesFault_oneField s rfl⟩
  case effect =>
    obtain rfl := eq_regNo hi
    exact ⟨_, exec_readKeyboard s i, by simp [State.keyAnswer], rfl, rfl,
      ((onlyChanges_countKeyRead s).trans
        (onlyChanges_setReg_advance s.countKeyRead i s.keyAnswer)).mono (by simp)⟩

/-! ### The display -/

theorem cell_displaySet (s : State) (x y row col : Fin 8) (c : Byte) :
    ((s.displaySet x y c).screen.get row).get col
      = if row = y ∧ col = x then c else (s.screen.get row).get col := by
  simp only [State.displaySet, Vector.get_eq_getElem, Vector.getElem_set, Fin.ext_iff,
    eq_comm (a := row.val), eq_comm (a := col.val)]
  by_cases hrow : y.val = row.val
  · simp [hrow, Vector.getElem_set]
  · simp [hrow]

theorem onlyChanges_displaySet (s : State) (x y : Fin 8) (c : Byte) :
    OnlyChanges [.screen y x, .displayCalls] s (s.displaySet x y c) := by
  intro p hp
  cases p with
  | displayCalls => simp at hp
  | screen row col =>
    have hother : ¬ (row = y ∧ col = x) := by simpa using hp
    exact (cell_displaySet s x y row col c).trans (if_neg hother)
  | _ => simp [Part.Same]

theorem onlyChanges_displayRender (s : State) :
    OnlyChanges [.displayCalls] s s.displayRender := by
  intro p hp
  cases p with
  | displayCalls => simp at hp
  | _ => simp [Part.Same]

/-- Settles O30: row and column below 8 name a cell; the code, the row and the column are tested
together, once the register field is known to be legal. -/
theorem drawSetsOneCellAndRenders : Obligations.DrawSetsOneCellAndRenders := by
  intro rX row col s
  refine ⟨decodeWord_draw rX row col, fun i r k hi hr hk hcode => ?effect, fun i hi hbad => ?fault,
    takesFault_oneField s rfl⟩
  case effect =>
    obtain rfl := eq_regNo hi
    obtain rfl := eq_regNo hr
    obtain rfl := eq_regNo hk
    exact ⟨_, exec_draw s i r k hcode,
      (cell_displaySet s k r r k _).trans (if_pos ⟨rfl, rfl⟩), by simp, rfl,
      (((onlyChanges_displaySet s k r _).trans (onlyChanges_displayRender _)).trans
        (onlyChanges_advance _)).mono (by simp)⟩
  case fault =>
    obtain rfl := eq_regNo hi
    exact ⟨_, exec_draw_out s i hbad, faultedWith_raise s _⟩

end Sys2Proof.Machine
end

