-- ==== Sys2Proof/Proofs/FaultFrames.lean ====
section
/-! The other causes of a fault (spec/60_exceptions.md section 1), each read off the law `FaultsBy`; a
fault leaves no partial state, and every instruction answers a next state. -/

namespace Sys2Proof.Machine

/-- Settles O31: the law's first row is the fault of the first bad field, and its other rows need legal
fields. -/
theorem badRegisterFieldFaultsFirst : Obligations.BadRegisterFieldFaultsFirst := by
  intro ins s f n
  rw [takesFault_iff_faultsBy]
  constructor
  · intro h
    cases h with
    | badField hfirst => exact hfirst
  · exact .badField

/-- Settles O32: only TO_ASCII tests a digit. -/
theorem onlyToAsciiFaultsInvalidDigit : Obligations.OnlyToAsciiFaultsInvalidDigit := by
  intro ins s v
  rw [takesFault_iff_faultsBy]
  constructor
  · intro h
    cases h with
    | digit i j hbig => exact ⟨i, j, rfl, rfl, hbig⟩
  · rintro ⟨i, j, rfl, rfl, hbig⟩
    exact .digit i j hbig

/-- Settles O33: only DRAW tests a place of the screen. -/
theorem onlyDrawFaultsInvalidDrawParameters : Obligations.OnlyDrawFaultsInvalidDrawParameters := by
  intro ins s c row col
  rw [takesFault_iff_faultsBy]
  constructor
  · intro h
    cases h with
    | draw i _ _ hbad => exact ⟨i, rfl, rfl, hbad⟩
  · rintro ⟨i, rfl, rfl, hbad⟩
    exact .draw i row col hbad

/-- Settles O35: READ and WRITE use A alone, which lies inside the bank; only BCD adds to it. -/
theorem onlyBcdFaultsOutOfBounds : Obligations.OnlyBcdFaultsOutOfBounds := by
  intro ins s b addr
  rw [takesFault_iff_faultsBy]
  constructor
  · intro h
    cases h with
    | bcd i ha => exact ⟨⟨i, rfl⟩, rfl, ha, rfl⟩
  · rintro ⟨⟨i, rfl⟩, rfl, ha, rfl⟩
    exact .bcd i ha

/-- Settles O36: an instruction that completes leaves no Fault diagnostic, so a new one is the fault
taken in the state the step began with. -/
theorem faultsLeaveNoPartialState : Obligations.FaultsLeaveNoPartialState := by
  intro ins s t c hexec hnew
  rcases exec_inv hexec with hdone | ⟨c', -, rfl⟩
  · exact absurd hnew (hdone.fault_notMem_diags c)
  · obtain rfl : c = c' := by simpa using hnew
    exact faultedWith_raise s c

/-- Settles O37: an instruction completes or faults, and both are next states. -/
theorem everyInstructionAnswersANextState : Obligations.EveryInstructionAnswersANextState := by
  intro ins s
  rcases exec_total ins s with ⟨t, hdone⟩ | ⟨c, hfault⟩
  · exact ⟨t, exec_of_completes hdone⟩
  · exact ⟨s.raise c, exec_of_faultsBy hfault⟩

end Sys2Proof.Machine
end

