-- ==== Sys2Proof/Proofs/CanonicalBanks.lean ====
section
/-! The list form of a bank is unique (spec/20_memory.md section 1; log 18). -/

namespace Sys2Proof.Machine

/-- Below the first address of the rest of a rising list, nothing is listed. -/
theorem read_eq_zero_of_rises {k : Nat} {rest : Memory} {addr : Nat} (hk : ∀ c ∈ rest, k < c.1)
    (h : addr ≤ k) : rest.read addr = 0 :=
  Memory.read_eq_zero fun c hc => by
    have := hk c hc
    omega

/-- A bank in canonical form from its first cell on. -/
theorem Memory.wf_cons {k : Nat} {v : Byte} {rest : Memory} (h : Memory.wf ((k, v) :: rest)) :
    (∀ c ∈ rest, k < c.1) ∧ v ≠ 0 ∧ rest.wf := by
  obtain ⟨hrises, hcells⟩ := h
  obtain ⟨hhead, htail⟩ := List.pairwise_cons.mp hrises
  exact ⟨hhead, (hcells _ List.mem_cons_self).2, htail,
    fun c hc => hcells c (List.mem_cons_of_mem _ hc)⟩

/-- The first address of a canonical bank is the first that does not read as 0. -/
theorem first_le_of_read_eq {k k' : Nat} {v v' : Byte} {rest rest' : Memory}
    (h : Memory.wf ((k, v) :: rest)) (h' : Memory.wf ((k', v') :: rest'))
    (heq : ∀ addr, Memory.read ((k, v) :: rest) addr = Memory.read ((k', v') :: rest') addr) :
    k' ≤ k := by
  by_contra hlt
  obtain ⟨-, hv, -⟩ := Memory.wf_cons h
  obtain ⟨hhead', -, -⟩ := Memory.wf_cons h'
  have hread := heq k
  rw [Memory.read_cons, if_pos rfl, Memory.read_cons, if_neg (by omega),
    read_eq_zero_of_rises hhead' (by omega)] at hread
  exact hv hread

/-- Settles O46: the first cells agree, since each is the first that does not read as 0; then the rests
read the same, both 0 up to that address. -/
theorem canonicalBanksAreEqualWhenTheyReadEqual :
    Obligations.CanonicalBanksAreEqualWhenTheyReadEqual := by
  intro mem
  induction mem with
  | nil =>
    intro mem' _ h' heq
    cases mem' with
    | nil => rfl
    | cons c' rest' =>
      obtain ⟨k', v'⟩ := c'
      have hread := heq k'
      rw [Memory.read_nil, Memory.read_cons, if_pos rfl] at hread
      exact absurd hread.symm (Memory.wf_cons h').2.1
  | cons c rest ih =>
    intro mem' h h' heq
    obtain ⟨k, v⟩ := c
    cases mem' with
    | nil =>
      have hread := heq k
      rw [Memory.read_nil, Memory.read_cons, if_pos rfl] at hread
      exact absurd hread (Memory.wf_cons h).2.1
    | cons c' rest' =>
      obtain ⟨k', v'⟩ := c'
      obtain rfl : k = k' := Nat.le_antisymm
        (first_le_of_read_eq h' h fun addr => (heq addr).symm) (first_le_of_read_eq h h' heq)
      obtain ⟨hhead, -, hrest⟩ := Memory.wf_cons h
      obtain ⟨hhead', -, hrest'⟩ := Memory.wf_cons h'
      obtain rfl : v = v' := by simpa [Memory.read_cons] using heq k
      rw [ih rest' hrest hrest' fun addr => ?_]
      by_cases hk : k = addr
      · rw [read_eq_zero_of_rises hhead hk.ge, read_eq_zero_of_rises hhead' hk.ge]
      · simpa [Memory.read_cons, hk] using heq addr

end Sys2Proof.Machine
end

