-- ==== Sys2Proof/Proofs/InstructionFrames.lean ====
section
/-! Frames over all instructions: who writes each part of the state (spec/10_state.md sections 1 and 8),
which bytes of memory change (spec/42_memory_access.md section 1), and which ROM writes are warned of
(spec/60_exceptions.md section 1). -/

namespace Sys2Proof.Machine

/-! ### One writer -/

/-- Settles O40: each instruction's effect is a set of its own parts; a fault is a set of RS and one more
diagnostic. -/
theorem specialStateHasOneWriter : Obligations.SpecialStateHasOneWriter := by
  intro ins s t hexec
  rcases exec_inv hexec with hdone | ⟨c, -, rfl⟩
  · cases hdone with
    | skipEq i j | skipNeq i j => split <;> simp
    | _ => simp
  · simp

/-! ### Registers -/

/-- An instruction leaves the registers as they were, or writes its destination. -/
theorem Completes.reg_cases {s t : State} {ins : Instr} (h : Completes s ins t) :
    (∀ j, t.reg j = s.reg j) ∨
    ∃ k v, destinationField ins = some (regNo k) ∧ ∀ j, t.reg j = (s.setReg k v).reg j := by
  cases h with
  | store i v => exact .inr ⟨i, v, rfl, fun _ => rfl⟩
  | add i j k | sub i j k => exact .inr ⟨k, _, rfl, fun _ => rfl⟩
  | read i | readTimer i | readKeyboard i => exact .inr ⟨i, _, rfl, fun _ => rfl⟩
  | toAscii i j _ => exact .inr ⟨j, _, rfl, fun _ => rfl⟩
  | skipEq i j | skipNeq i j => exact .inl fun _ => by split <;> rfl
  | _ => exact .inl fun _ => by simp

theorem exec_reg_of_ne_destination {ins : Instr} {s t : State} {j : Fin 8}
    (h : exec ins s = .next t) (hj : destinationField ins ≠ some (regNo j)) :
    t.reg j = s.reg j := by
  rcases exec_inv h with hdone | ⟨c, -, rfl⟩
  · rcases hdone.reg_cases with hsame | ⟨k, v, hdest, hset⟩
    · exact hsame j
    · have hjk : j ≠ k := fun hjk => hj (hjk ▸ hdest)
      rw [hset, State.reg_setReg, if_neg hjk]
  · rfl

/-! ### Bytes of memory -/

/-- An instruction stores nothing and warns of nothing, or stores one byte at A, or three from A on. -/
theorem Completes.byte_cases {s t : State} {ins : Instr} (h : Completes s ins t) :
    ((∀ b addr, t.byteAt b addr = s.byteAt b addr) ∧
      ∀ addr v, .romWrite addr v ∉ t.diags.drop s.diags.length) ∨
    (∃ i, ins = .write (regNo i) ∧ t = (s.stored s.dataAddress (s.reg i)).advance) ∨
    ∃ i, ins = .bcd (regNo i) ∧ t = (s.storedDigits (s.reg i)).advance := by
  cases h with
  | write i => exact .inr (.inl ⟨i, rfl, rfl⟩)
  | bcd i _ => exact .inr (.inr ⟨i, rfl, rfl⟩)
  | skipEq i j | skipNeq i j => exact .inl (by split <;> simp)
  | _ => exact .inl (by simp)

/-- Settles O41: a byte that changed is one that the store, or one of the three, was made at. -/
theorem memoryChangesOnlyThroughA : Obligations.MemoryChangesOnlyThroughA := by
  intro ins s t b addr hexec hne
  rcases exec_inv hexec with hdone | ⟨c, -, rfl⟩
  · rcases hdone.byte_cases with ⟨hsame, -⟩ | ⟨i, rfl, rfl⟩ | ⟨i, rfl, rfl⟩
    · exact absurd (hsame b addr) hne
    · rw [State.byteAt_advance, State.byteAt_stored] at hne
      obtain ⟨hb, haddr⟩ : b = s.m ∧ addr = s.dataAddress := by
        by_contra hother
        exact hne (if_neg hother)
      exact ⟨hb, .inl ⟨_, rfl, haddr⟩⟩
    · rw [State.byteAt_advance, State.byteAt_storedDigits] at hne
      split_ifs at hne with h0 h1 h2
      · exact ⟨h0.1, .inr ⟨_, rfl, by omega⟩⟩
      · exact ⟨h1.1, .inr ⟨_, rfl, by omega⟩⟩
      · exact ⟨h2.1, .inr ⟨_, rfl, by omega⟩⟩
      · exact absurd rfl hne
  · exact absurd (s.byteAt_raise c b addr) hne

/-! ### ROM writes -/

/-- The warnings new in `t` are of bytes that stand in ROM now, and no byte of ROM changed without one. -/
def WarnsOfRomWrites (s t : State) : Prop :=
  (∀ addr v, .romWrite addr v ∈ t.diags.drop s.diags.length →
    s.m = .rom ∧ t.byteAt .rom addr = v) ∧
  ∀ addr, t.byteAt .rom addr ≠ s.byteAt .rom addr →
    .romWrite addr (t.byteAt .rom addr) ∈ t.diags.drop s.diags.length

theorem warnsOfRomWrites_of_same {s t : State}
    (hbytes : ∀ addr, t.byteAt .rom addr = s.byteAt .rom addr)
    (hdiags : ∀ addr v, .romWrite addr v ∉ t.diags.drop s.diags.length) : WarnsOfRomWrites s t :=
  ⟨fun addr v h => absurd h (hdiags addr v), fun addr h => absurd (hbytes addr) h⟩

/-- A store goes to ROM and is warned of, or it goes to RAM. -/
theorem warnsOfRomWrites_stored (s : State) (addr : Nat) (v : Byte) :
    WarnsOfRomWrites s (s.stored addr v).advance := by
  cases hm : s.m with
  | rom =>
    refine ⟨fun addr' v' hnew => ⟨hm, ?_⟩, fun addr' hne => ?_⟩
    · obtain ⟨rfl, rfl⟩ : addr' = addr ∧ v' = v := by simpa [hm] using hnew
      simp [State.byteAt_stored, hm]
    · have haddr : addr' = addr := by
        by_contra hother
        simp [State.byteAt_stored, hother] at hne
      simp [State.byteAt_stored, hm, haddr]
  | ram =>
    exact warnsOfRomWrites_of_same (by simp [State.byteAt_stored, hm]) (by simp [hm])

/-- The same of three stores at three addresses. -/
theorem warnsOfRomWrites_storedDigits (s : State) (v : Byte) :
    WarnsOfRomWrites s (s.storedDigits v).advance := by
  cases hm : s.m with
  | rom =>
    refine ⟨fun addr v' hnew => ⟨hm, ?_⟩, fun addr hne => ?_⟩
    · have hnew' : (addr = s.dataAddress ∧ v' = hundreds v) ∨
          (addr = s.dataAddress + 1 ∧ v' = tens v) ∨ (addr = s.dataAddress + 2 ∧ v' = ones v) := by
        simpa [hm] using hnew
      rcases hnew' with ⟨rfl, rfl⟩ | ⟨rfl, rfl⟩ | ⟨rfl, rfl⟩ <;>
        simp [State.byteAt_storedDigits, hm]
    · have haddr : addr = s.dataAddress ∨ addr = s.dataAddress + 1 ∨ addr = s.dataAddress + 2 := by
        by_contra hother
        rw [not_or, not_or] at hother
        simp [State.byteAt_storedDigits, hother] at hne
      rcases haddr with rfl | rfl | rfl <;> simp [State.byteAt_storedDigits, hm]
  | ram =>
    exact warnsOfRomWrites_of_same (by simp [State.byteAt_storedDigits, hm]) (by simp [hm])

/-- Settles O42: only WRITE and BCD store, and each store into ROM is warned of; the exact lists are those
of one store and of three. -/
theorem romWritesAreWarnedOf : Obligations.RomWritesAreWarnedOf := by
  intro ins s t hexec
  have hwarns : WarnsOfRomWrites s t ∧ ∀ addr v, .romWrite addr v ∈ t.diags.drop s.diags.length →
      (∃ rX, ins = .write rX ∨ ins = .bcd rX) ∧ t.rs = s.rs := by
    rcases exec_inv hexec with hdone | ⟨c, -, rfl⟩
    · rcases hdone.byte_cases with ⟨hbytes, hdiags⟩ | ⟨i, rfl, rfl⟩ | ⟨i, rfl, rfl⟩
      · exact ⟨warnsOfRomWrites_of_same (hbytes .rom) hdiags,
          fun addr v hnew => absurd hnew (hdiags addr v)⟩
      · exact ⟨warnsOfRomWrites_stored s _ _, fun _ _ _ => ⟨⟨_, .inl rfl⟩, by simp⟩⟩
      · exact ⟨warnsOfRomWrites_storedDigits s _, fun _ _ _ => ⟨⟨_, .inr rfl⟩, by simp⟩⟩
    · exact ⟨warnsOfRomWrites_of_same (by simp) (by simp), by simp⟩
  obtain ⟨⟨hnew, hchanged⟩, hby⟩ := hwarns
  refine ⟨fun addr v h => ?new, hchanged, fun p hins hm => ?write, fun p hins hm ha => ?bcd⟩
  case new =>
    obtain ⟨hm, hbyte⟩ := hnew addr v h
    obtain ⟨hins, hrs⟩ := hby addr v h
    exact ⟨hm, hins, hbyte, hrs⟩
  case write =>
    rw [hins, exec_write] at hexec
    cases hexec
    simp [hm]
  case bcd =>
    rw [hins, exec_bcd s p ha] at hexec
    cases hexec
    simp [hm, State.byteAt_storedDigits]

end Sys2Proof.Machine
end

