-- ==== Sys2Proof/Proofs/Noninterference.lean ====
section
/-! What an instruction does not look at (spec/10_state.md sections 1 and 2, spec/40_execution_cycle.md
R109): an update of the timer, of a register it does not name or of pc, made before the instruction, comes
to the same as made after it. -/

namespace Sys2Proof.Machine

/-- Some register field of the instruction names register `i`. -/
def Names (ins : Instr) (i : Fin 8) : Prop := ∃ f, (f, regNo i) ∈ registerFields ins

/-- Whether an instruction faults, and how, depends on the registers it names, on A and on M. -/
theorem FaultsBy.congr {s s' : State} {ins : Instr} {c : Cause} (h : FaultsBy s ins c)
    (hreg : ∀ i, Names ins i → s'.reg i = s.reg i) (ha : s'.a = s.a) (hm : s'.m = s.m) :
    FaultsBy s' ins c := by
  cases h with
  | badField hfirst => exact .badField hfirst
  | oddJump addr12 hodd => exact .oddJump addr12 hodd
  | bcd i hpast =>
    rw [← ha] at hpast
    rw [← hm]
    exact .bcd i hpast
  | digit i j hbig =>
    rw [← hreg i ⟨.rX, by simp [registerFields]⟩] at hbig ⊢
    exact .digit i j hbig
  | draw i row col hbad =>
    rw [← hreg i ⟨.rX, by simp [registerFields]⟩] at hbad ⊢
    exact .draw i row col hbad

/-- An update passes through an instruction when it passes through its effect and through its faults. -/
theorem exec_map {f : State → State} {ins : Instr} {s t : State} (h : exec ins s = .next t)
    (hdone : ∀ {t}, Completes s ins t → Completes (f s) ins (f t))
    (hfault : ∀ {c}, FaultsBy s ins c → FaultsBy (f s) ins c)
    (hraise : ∀ c, (f s).raise c = f (s.raise c)) : exec ins (f s) = .next (f t) := by
  rcases exec_inv h with ht | ⟨c, hc, rfl⟩
  · exact exec_of_completes (hdone ht)
  · rw [exec_of_faultsBy (hfault hc), hraise]

/-! ### The timer -/

theorem stored_setTimer (s : State) (u : Byte) (addr : Nat) (v : Byte) :
    (s.setTimer u).stored addr v = (s.stored addr v).setTimer u := by
  unfold State.stored
  rw [State.setTimer_m]
  cases s.m <;> rfl

theorem storedDigits_setTimer (s : State) (u v : Byte) :
    (s.setTimer u).storedDigits v = (s.storedDigits v).setTimer u := by
  simp only [State.storedDigits, stored_setTimer]
  rfl

theorem Completes.setTimer_comm {s t : State} {ins : Instr} (h : Completes s ins t) (v : Byte)
    (hread : ∀ rX, ins ≠ .readTimer rX) (hset : ∀ u, ins ≠ .setTimer u) :
    Completes (s.setTimer v) ins (t.setTimer v) := by
  cases h with
  | readTimer i => exact absurd rfl (hread _)
  | setTimer u => exact absurd rfl (hset u)
  | halt => exact .halt
  | store i w => exact .store i w
  | add i j k => exact .add i j k
  | sub i j k => exact .sub i j k
  | read i =>
    have hread := Completes.read (s := s.setTimer v) i
    rw [State.byteAt_setTimer] at hread
    exact hread
  | write i =>
    have hwrite := Completes.write (s := s.setTimer v) i
    rw [stored_setTimer] at hwrite
    exact hwrite
  | jump addr12 heven => exact .jump addr12 heven
  | readKeyboard i => exact .readKeyboard i
  | switchMemory => exact .switchMemory
  | skipEq i j => rw [apply_ite (State.setTimer · v)]; exact .skipEq i j
  | skipNeq i j => rw [apply_ite (State.setTimer · v)]; exact .skipNeq i j
  | setAddress addr12 => exact .setAddress addr12
  | bcd i ha =>
    have hbcd := Completes.bcd (s := s.setTimer v) i ha
    rw [storedDigits_setTimer] at hbcd
    exact hbcd
  | toAscii i j hdigit => exact .toAscii i j hdigit
  | draw i j k hcode => exact .draw i j k hcode

/-- Settles O43: no effect but those of the two instructions, and no fault, meets the counter. -/
theorem timerIsInvisibleToOtherInstructions : Obligations.TimerIsInvisibleToOtherInstructions :=
  fun _ _ _ v hread hset h => exec_map (f := fun s => s.setTimer v) h
    (fun hdone => hdone.setTimer_comm v hread hset)
    (fun hfault => hfault.congr (fun _ _ => rfl) rfl rfl) (fun _ => rfl)

/-! ### A register that is not named -/

theorem reg_setReg_of_ne {s : State} {i j : Fin 8} (v : Byte) (h : i ≠ j) :
    (s.setReg j v).reg i = s.reg i := by
  rw [State.reg_setReg, if_neg h]

theorem setReg_comm (s : State) {i j : Fin 8} (v w : Byte) (h : i ≠ j) :
    (s.setReg j v).setReg i w = (s.setReg i w).setReg j v := by
  have hne : j.val ≠ i.val := fun hval => h (Fin.ext hval.symm)
  simp only [State.setReg, Vector.set_comm v w hne]

theorem stored_setReg (s : State) (j : Fin 8) (u : Byte) (addr : Nat) (v : Byte) :
    (s.setReg j u).stored addr v = (s.stored addr v).setReg j u := by
  unfold State.stored
  rw [State.setReg_m]
  cases s.m <;> rfl

theorem storedDigits_setReg (s : State) (j : Fin 8) (u v : Byte) :
    (s.setReg j u).storedDigits v = (s.storedDigits v).setReg j u := by
  simp only [State.storedDigits, stored_setReg]
  rfl

theorem Completes.setReg_comm {s t : State} {ins : Instr} (h : Completes s ins t) (j : Fin 8)
    (v : Byte) (hnamed : ∀ i, Names ins i → i ≠ j) :
    Completes (s.setReg j v) ins (t.setReg j v) := by
  have hkept (i : Fin 8) (hi : Names ins i) : (s.setReg j v).reg i = s.reg i :=
    reg_setReg_of_ne v (hnamed i hi)
  have hwritten (i : Fin 8) (w : Byte) (hi : Names ins i) :
      (s.setReg j v).setReg i w = (s.setReg i w).setReg j v :=
    Machine.setReg_comm s v w (hnamed i hi)
  cases h with
  | halt => exact .halt
  | store i w =>
    have h := Completes.store (s := s.setReg j v) i w
    rw [hwritten i w ⟨.rX, by simp [registerFields]⟩] at h
    exact h
  | add a b c =>
    have h := Completes.add (s := s.setReg j v) a b c
    rw [hkept a ⟨.rX, by simp [registerFields]⟩, hkept b ⟨.rY, by simp [registerFields]⟩,
      hwritten c _ ⟨.rZ, by simp [registerFields]⟩] at h
    exact h
  | sub a b c =>
    have h := Completes.sub (s := s.setReg j v) a b c
    rw [hkept a ⟨.rX, by simp [registerFields]⟩, hkept b ⟨.rY, by simp [registerFields]⟩,
      hwritten c _ ⟨.rZ, by simp [registerFields]⟩] at h
    exact h
  | read i =>
    have h := Completes.read (s := s.setReg j v) i
    rw [State.byteAt_setReg, hwritten i _ ⟨.rX, by simp [registerFields]⟩] at h
    exact h
  | write i =>
    have h := Completes.write (s := s.setReg j v) i
    rw [hkept i ⟨.rX, by simp [registerFields]⟩, stored_setReg] at h
    exact h
  | jump addr12 heven => exact .jump addr12 heven
  | readKeyboard i =>
    have h := Completes.readKeyboard (s := s.setReg j v) i
    rw [hwritten i _ ⟨.rX, by simp [registerFields]⟩] at h
    exact h
  | switchMemory => exact .switchMemory
  | skipEq a b =>
    have h := Completes.skipEq (s := s.setReg j v) a b
    rw [hkept a ⟨.rX, by simp [registerFields]⟩, hkept b ⟨.rY, by simp [registerFields]⟩] at h
    rw [apply_ite (State.setReg · j v)]
    exact h
  | skipNeq a b =>
    have h := Completes.skipNeq (s := s.setReg j v) a b
    rw [hkept a ⟨.rX, by simp [registerFields]⟩, hkept b ⟨.rY, by simp [registerFields]⟩] at h
    rw [apply_ite (State.setReg · j v)]
    exact h
  | setAddress addr12 => exact .setAddress addr12
  | setTimer u => exact .setTimer u
  | readTimer i =>
    have h := Completes.readTimer (s := s.setReg j v) i
    rw [hwritten i _ ⟨.rX, by simp [registerFields]⟩] at h
    exact h
  | bcd i ha =>
    have h := Completes.bcd (s := s.setReg j v) i ha
    rw [hkept i ⟨.rX, by simp [registerFields]⟩, storedDigits_setReg] at h
    exact h
  | toAscii a b hdigit =>
    have ha := hkept a ⟨.rX, by simp [registerFields]⟩
    have h := Completes.toAscii (s := s.setReg j v) a b (by rwa [ha])
    rw [ha, hwritten b _ ⟨.rY, by simp [registerFields]⟩] at h
    exact h
  | draw i row col hcode =>
    have hi := hkept i ⟨.rX, by simp [registerFields]⟩
    have h := Completes.draw (s := s.setReg j v) i row col (by rwa [hi])
    rw [hi] at h
    exact h

/-- Settles O39: only the destination is written, and a register no field names is neither read nor
written, so setting it first or last comes to the same. -/
theorem registersNotNamedAreNotTouched : Obligations.RegistersNotNamedAreNotTouched := by
  refine ⟨fun ins s t j h => exec_reg_of_ne_destination h, fun ins s t j v h hj => ?_⟩
  have hnamed (i : Fin 8) (hi : Names ins i) : i ≠ j := by
    rintro rfl
    obtain ⟨f, hf⟩ := hi
    exact hj f hf
  exact exec_map (f := fun s => s.setReg j v) h (fun hdone => hdone.setReg_comm j v hnamed)
    (fun hfault => hfault.congr (fun i hi => reg_setReg_of_ne v (hnamed i hi)) rfl rfl)
    (fun _ => rfl)

/-! ### pc -/

theorem stored_setPc (s : State) (p : Pc) (addr : Nat) (v : Byte) :
    (s.setPc p).stored addr v = (s.stored addr v).setPc p := by
  unfold State.stored
  rw [State.setPc_m]
  cases s.m <;> rfl

theorem storedDigits_setPc (s : State) (p : Pc) (v : Byte) :
    (s.setPc p).storedDigits v = (s.storedDigits v).setPc p := by
  simp only [State.storedDigits, stored_setPc]
  rfl

/-- The registers and both banks are the same. -/
def SameData (s t : State) : Prop :=
  (∀ j, t.reg j = s.reg j) ∧ ∀ b addr, t.byteAt b addr = s.byteAt b addr

theorem sameData_of_eq {s t : State} (hx : t.x = s.x) (hrom : t.rom = s.rom)
    (hram : t.ram = s.ram) : SameData s t :=
  ⟨State.reg_congr s t hx, State.byteAt_congr s t hrom hram⟩

theorem sameData_skip_or_advance (s : State) (p : Pc) (q : Prop) [Decidable q] :
    SameData (if q then s.skip else s.advance)
      (if q then (s.setPc p).skip else (s.setPc p).advance) := by
  split <;> exact sameData_of_eq rfl rfl rfl

/-- pc is met only by HALT's record and by the advance. -/
theorem Completes.setPc_sameData {s t : State} {ins : Instr} (h : Completes s ins t) (p : Pc) :
    ∃ u, Completes (s.setPc p) ins u ∧ SameData t u := by
  cases h with
  | halt => exact ⟨_, .halt, sameData_of_eq rfl rfl rfl⟩
  | store i v => exact ⟨_, .store i v, sameData_of_eq rfl rfl rfl⟩
  | add i j k => exact ⟨_, .add i j k, sameData_of_eq rfl rfl rfl⟩
  | sub i j k => exact ⟨_, .sub i j k, sameData_of_eq rfl rfl rfl⟩
  | read i => exact ⟨_, .read i, sameData_of_eq (by simp [State.dataAddress]) rfl rfl⟩
  | write i =>
    exact ⟨_, .write i, sameData_of_eq (by simp) (by rw [stored_setPc]; rfl)
      (by rw [stored_setPc]; rfl)⟩
  | jump addr12 heven => exact ⟨_, .jump addr12 heven, sameData_of_eq rfl rfl rfl⟩
  | readKeyboard i => exact ⟨_, .readKeyboard i, sameData_of_eq rfl rfl rfl⟩
  | switchMemory => exact ⟨_, .switchMemory, sameData_of_eq rfl rfl rfl⟩
  | skipEq i j => exact ⟨_, .skipEq i j, sameData_skip_or_advance s p _⟩
  | skipNeq i j => exact ⟨_, .skipNeq i j, sameData_skip_or_advance s p _⟩
  | setAddress addr12 => exact ⟨_, .setAddress addr12, sameData_of_eq rfl rfl rfl⟩
  | setTimer v => exact ⟨_, .setTimer v, sameData_of_eq rfl rfl rfl⟩
  | readTimer i => exact ⟨_, .readTimer i, sameData_of_eq rfl rfl rfl⟩
  | bcd i ha =>
    exact ⟨_, .bcd i ha, sameData_of_eq (by simp) (by rw [storedDigits_setPc]; rfl)
      (by rw [storedDigits_setPc]; rfl)⟩
  | toAscii i j hdigit => exact ⟨_, .toAscii i j hdigit, sameData_of_eq rfl rfl rfl⟩
  | draw i j k hcode => exact ⟨_, .draw i j k hcode, sameData_of_eq rfl rfl rfl⟩

theorem exec_setPc_sameData {s t : State} {ins : Instr} (h : exec ins s = .next t) (p : Pc) :
    ∃ u, exec ins (s.setPc p) = .next u ∧ SameData t u := by
  rcases exec_inv h with hdone | ⟨c, hfault, rfl⟩
  · obtain ⟨u, hu, hsame⟩ := hdone.setPc_sameData p
    exact ⟨u, exec_of_completes hu, hsame⟩
  · exact ⟨_, exec_of_faultsBy (hfault.congr (fun _ _ => rfl) rfl rfl),
      sameData_of_eq rfl rfl rfl⟩

/-- pc after the two skips, when the test is `p`. -/
theorem skip_or_advance_pc_toNat {s : State} (h : s.pc.toNat ≤ 4094) (p : Prop) [Decidable p] :
    (if p then s.skip else s.advance).pc.toNat = s.pc.toNat + if p then 4 else 2 := by
  split
  · exact skip_pc_toNat h
  · exact advance_pc_toNat h

/-- Settles O38: the last clause goes through the effects; every effect but those of HALT, JUMP and the
skips sets other parts and then advances. -/
theorem pcAfterEveryInstruction : Obligations.PcAfterEveryInstruction := by
  intro ins s t hle hexec
  refine ⟨exec_setPc_sameData hexec, fun ⟨c, hc⟩ => ?fault, fun a hins hodd => ?oddJump,
    fun hnone => ?done⟩
  case fault =>
    obtain ⟨-, -, hframe⟩ := faultsLeaveNoPartialState ins s t c hexec hc
    exact hframe .pc (by simp)
  case oddJump =>
    rw [hins, exec_jump_odd s hodd] at hexec
    cases hexec
    rfl
  case done =>
    rcases exec_inv hexec with hdone | ⟨c, -, rfl⟩
    · cases hdone with
      | halt => rfl
      | jump addr12 _ => exact setPc_target_toNat s addr12
      | skipEq i j | skipNeq i j => exact ⟨i, j, rfl, rfl, skip_or_advance_pc_toNat hle _⟩
      | _ => exact (advance_pc_toNat (by simpa using hle)).trans (by simp)
    · exact absurd (by simp) (hnone c)

end Sys2Proof.Machine
end

