-- ==== Sys2Proof/Proofs/HostOperations.lean ====
section
/-! The host's operations one by one: start() (spec/40_execution_cycle.md section 2), LoadROM
(spec/20_memory.md section 5) and the accessors (spec/60_exceptions.md section 7). -/

namespace Sys2Proof.Machine

/-! ### start() -/

/-- Settles O51: `start()` is a set of pc, then a set of RS. -/
theorem startResetsPcAndRuns : Obligations.StartResetsPcAndRuns := fun s =>
  ⟨s.start, rfl, rfl, rfl, (onlyChanges_setPc s 0).trans (onlyChanges_setRunState _ .running)⟩

/-! ### LoadROM -/

theorem onlyChanges_reply (s : State) (r : HostReply) : OnlyChanges [.replies] s (s.reply r) := by
  intro p hp
  cases p with
  | replies => simp at hp
  | _ => simp [Part.Same]

/-- A replaced bank changes bytes of that bank and nothing else. -/
theorem same_setCells_of_other {s : State} {b : Bank} (mem : Memory) {p : Part}
    (hp : ∀ addr, p ≠ .cell b addr) : p.Same s (s.setCells b mem) := by
  cases p with
  | cell b' addr =>
    have hb : b' ≠ b := fun h => hp addr (h ▸ rfl)
    exact (s.byteAt_setCells b b' mem addr).trans (if_neg hb)
  | _ => simp [Part.Same]

theorem serve_loadRom {s : State} (image : List Byte) (h : s.rs = .stopped) :
    serve (.loadRom image) s = .next (s.loadRom image) := by
  simp [serve, whileStopped, h]

theorem loadRom_fits (s : State) {image : List Byte} (h : image.length ≤ 4096) :
    s.loadRom image = (s.setCells .rom (Memory.image 0 image)).reply .done :=
  if_neg (Nat.not_lt.mpr h)

theorem loadRom_tooLarge (s : State) {image : List Byte} (h : 4096 < image.length) :
    s.loadRom image = s.reply (.imageTooLarge image.length) :=
  if_pos h

/-- Settles O47: the bank is the image's canonical list, whatever it was before. -/
theorem loadRomReplacesTheBank : Obligations.LoadRomReplacesTheBank := by
  intro s image hrs
  refine ⟨fun hfits => ?fits, fun hlarge => ?large⟩
  case fits =>
    refine ⟨_, (serve_loadRom image hrs).trans (by rw [loadRom_fits s hfits]), fun addr _ => ?_,
      Memory.image_wf 0 image (by simpa [Config.bankSize] using hfits), fun addr => ?_, ?_,
      fun p hreplies hcell => ?_⟩
    · simp [State.byteAt_setCells, Memory.read_image]
    · simp [State.byteAt_setCells]
    · simp
    · exact (same_setCells_of_other _ hcell).trans (onlyChanges_reply _ _ p (by simpa using hreplies))
  case large =>
    exact ⟨_, (serve_loadRom image hrs).trans (by rw [loadRom_tooLarge s hlarge]), rfl,
      onlyChanges_reply s _⟩

/-! ### The accessors -/

theorem serve_getReg (s : State) (i : Fin 8) :
    serve (.getReg i.val) s = .next (s.reply (.reg (s.reg i))) := by
  rw [serve, withHostReg_ok]

theorem serve_badIndex (s : State) {n : Nat} {op : HostOp} (hn : 8 ≤ n)
    (hop : op = .getReg n ∨ ∃ v, op = .setReg n v) :
    serve op s = .next (s.reply (.indexOutOfRange n)) := by
  rcases hop with rfl | ⟨v, rfl⟩ <;> rw [serve, withHostReg_out s _ hn]

theorem serve_setReg {s : State} (h : s.maySet = true) (i : Fin 8) (v : Byte) :
    serve (.setReg i.val v) s = .next ((s.setReg i v).reply .done) := by
  rw [serve, withHostReg_ok, inPlace_ok _ h]

/-- An operation that only answers the host. -/
theorem answers_of_serve {op : HostOp} {s : State} {r : HostReply}
    (h : serve op s = .next (s.reply r)) :
    ∃ t, serve op s = .next t ∧ t.replies = s.replies ++ [r] ∧ OnlyChanges [.replies] s t :=
  ⟨_, h, rfl, onlyChanges_reply s r⟩

theorem onlyChanges_setReg (s : State) (i : Fin 8) (v : Byte) :
    OnlyChanges [.reg i] s (s.setReg i v) := by
  intro p hp
  cases p with
  | reg j =>
    have hji : j ≠ i := by simpa using hp
    exact reg_setReg_of_ne v hji
  | _ => simp [Part.Same]

/-- Settles O55: a get answers and does no more; a set in place is the set of that one register. -/
theorem accessorsReachOneRegister : Obligations.AccessorsReachOneRegister := by
  intro s
  refine ⟨fun op r hget => ?gets, fun i => answers_of_serve (serve_getReg s i),
    fun b addr => ?byte, fun row col => answers_of_serve rfl, fun n v hn op hop => ?badIndex,
    fun v => ⟨_, rfl, rfl, onlyChanges_setTimer s v⟩, fun hmay => ?sets⟩
  case gets =>
    simp only [List.mem_cons, List.not_mem_nil, or_false, Prod.mk.injEq] at hget
    rcases hget with ⟨rfl, rfl⟩ | ⟨rfl, rfl⟩ | ⟨rfl, rfl⟩ | ⟨rfl, rfl⟩ | ⟨rfl, rfl⟩ <;>
      exact answers_of_serve rfl
  case byte =>
    rw [← hostRead_eq]
    exact answers_of_serve rfl
  case badIndex => exact answers_of_serve (serve_badIndex s hn (hop.imp_right fun h => ⟨v, h⟩))
  case sets =>
    have hset := maySet_iff.mpr hmay
    exact ⟨fun i v => ⟨_, serve_setReg hset i v, by simp, rfl,
        (onlyChanges_setReg s i v).trans (onlyChanges_reply _ _)⟩,
      fun v => ⟨_, inPlace_ok _ hset, setPc_target_toNat s v, onlyChanges_setPc s _⟩,
      fun v => ⟨_, inPlace_ok _ hset, rfl, onlyChanges_setAddr s v⟩,
      fun b => ⟨_, inPlace_ok _ hset, rfl, onlyChanges_setBank s b⟩⟩

end Sys2Proof.Machine
end

