-- ==== Sys2Proof/Proofs/Moves.lean ====
section
/-! The moves of the agents (spec/40_execution_cycle.md sections 1 and 2): which answer no next state, how
the run state changes, and whose turn it is. -/

namespace Sys2Proof.Machine

/-! ### Where a move is refused -/

theorem execute_total (s : State) : ∃ t, execute s = .next t := by
  cases hfetch : fetchDecode s with
  | error c => exact ⟨_, execute_of_fetchDecode_error hfetch⟩
  | ok ins =>
    rw [execute, hfetch]
    exact everyInstructionAnswersANextState ins s

/-- The name an operation that breaks a duty is refused under (the spec's U10, U11). -/
def dutyRefusal : HostOp → Refusal
  | .loadRom _ => .loadWhileRunning
  | _ => .setWhileRunning

theorem serve_of_breaksDuty {s : State} {op : HostOp} (hrs : s.rs = .running)
    (h : breaksDuty s.maySet op = true) : serve op s = .refused (dutyRefusal op) := by
  cases op with
  | loadRom image => simp [serve, whileStopped, hrs, dutyRefusal]
  | setReg n v =>
    obtain ⟨hn, hmay⟩ : n < 8 ∧ s.maySet = false := by simpa [breaksDuty] using h
    rw [serve, withHostReg_ok s ⟨n, hn⟩, inPlace_refused _ hmay, dutyRefusal]
    simp
  | setPc _ | setAddr _ | setBank _ =>
    have hmay : s.maySet = false := by simpa [breaksDuty] using h
    rw [serve, inPlace_refused _ hmay, dutyRefusal]
    simp
  | _ => simp [breaksDuty] at h

theorem serve_of_not_breaksDuty {s : State} {op : HostOp}
    (h : s.rs = .running → breaksDuty s.maySet op = false) : ∃ t, serve op s = .next t := by
  have hmay (hset : s.rs = .running → s.maySet = true) : s.maySet = true := by
    cases hrs : s.rs with
    | running => exact hset hrs
    | stopped => exact maySet_iff.mpr (.inl hrs)
  cases op with
  | execute => exact execute_total _
  | loadRom image =>
    have hrs : s.rs = .stopped := by
      cases hrs : s.rs with
      | running => exact absurd (h hrs) (by simp [breaksDuty])
      | stopped => rfl
    exact ⟨_, serve_loadRom image hrs⟩
  | getReg n =>
    by_cases hn : n < 8
    · exact ⟨_, serve_getReg s ⟨n, hn⟩⟩
    · exact ⟨_, serve_badIndex s (Nat.le_of_not_lt hn) (.inl rfl)⟩
  | setReg n v =>
    by_cases hn : n < 8
    · exact ⟨_, serve_setReg (hmay fun hrs => by simpa [breaksDuty, hn] using h hrs) ⟨n, hn⟩ v⟩
    · exact ⟨_, serve_badIndex s (Nat.le_of_not_lt hn) (.inr ⟨v, rfl⟩)⟩
  | setPc _ | setAddr _ | setBank _ =>
    exact ⟨_, inPlace_ok _ (hmay fun hrs => by simpa [breaksDuty] using h hrs)⟩
  | _ => exact ⟨_, rfl⟩

theorem step_clock_stopped {s : State} (hmv : (nextMove s).1 = .clock) (hrs : s.rs = .stopped) :
    step s = .next (s.elapse.setAgenda (nextMove s).2) := by
  simp [step, hmv, perform, clockFires, hrs]

theorem agenda_of_nextMove_host {s : State} {op : HostOp} (h : (nextMove s).1 = .host op) :
    s.agenda = .host op :: (nextMove s).2 := by
  cases hagenda : s.agenda with
  | nil =>
    rw [nextMove_of_agenda_nil hagenda] at h
    cases h
  | cons mv rest =>
    rw [nextMove_of_agenda_cons hagenda] at h ⊢
    cases h
    rfl

/-- Settles O54: no time passes while Stopped, and the clock does nothing. -/
theorem stoppedMachineRests : Obligations.StoppedMachineRests := by
  intro s hrs hagenda
  have hmv := nextMove_of_agenda_nil hagenda
  rw [step_clock_stopped (by rw [hmv]) hrs, hmv, elapse_stopped hrs,
    setAgenda_of_agenda_eq hagenda]

/-- Where the host may set a register is read off the moves after the one served. -/
theorem maySet_served {s : State} (hrs : s.rs = .running) (rest : List Move) :
    (s.elapse.setAgenda rest).maySet = (s.hostStepped && nextStepDirect rest) := by
  rw [maySet_running (by simpa using hrs)]
  simp

/-- Settles O56: the clock's move always answers, and so does an operation that breaks no duty. -/
theorem stepRefusesOnlyBrokenHostDuties : Obligations.StepRefusesOnlyBrokenHostDuties := by
  intro s
  have hrefused (op : HostOp) (rest : List Move) (hrs : s.rs = .running)
      (hagenda : s.agenda = .host op :: rest)
      (hbreaks : breaksDuty (s.hostStepped && nextStepDirect rest) op = true) :
      step s = .refused (dutyRefusal op) := by
    have hmv := nextMove_of_agenda_cons hagenda
    rw [step_host (by rw [hmv]), hmv,
      serve_of_breaksDuty (by simpa using hrs) (by rwa [maySet_served hrs])]
  refine ⟨⟨fun ⟨t, ht⟩ ⟨hrs, op, rest, hagenda, hbreaks⟩ => ?breaks, fun hkept => ?keeps⟩,
    fun op rest hrs hagenda hbreaks =>
      (hrefused op rest hrs hagenda hbreaks).trans (by cases op <;> rfl)⟩
  case breaks =>
    rw [hrefused op rest hrs hagenda hbreaks] at ht
    cases ht
  case keeps =>
    cases hmv : (nextMove s).1 with
    | clock =>
      cases hrs : s.rs with
      | running =>
        rw [step_clock_running hmv hrs]
        exact execute_total _
      | stopped => exact ⟨_, step_clock_stopped hmv hrs⟩
    | host op =>
      rw [step_host hmv]
      refine serve_of_not_breaksDuty fun hrs => ?_
      have hrs' : s.rs = .running := by simpa using hrs
      rw [maySet_served hrs', Bool.eq_false_iff]
      exact fun hbreaks => hkept ⟨hrs', op, _, agenda_of_nextMove_host hmv, hbreaks⟩

/-! ### Whose turn it is -/

theorem execute_keeps_turn {s t : State} (h : execute s = .next t) :
    t.agenda = s.agenda ∧ t.hostStepped = s.hostStepped := by
  rcases execute_inv h with ⟨ins, hexec⟩ | ⟨c, rfl⟩
  · obtain ⟨-, -, -, -, -, -, -, -, hagenda, hnote, -⟩ :=
      specialStateHasOneWriter ins s t hexec
    exact ⟨hagenda, hnote⟩
  · exact ⟨rfl, rfl⟩

@[simp] theorem State.loadRom_rs (s : State) (image : List Byte) : (s.loadRom image).rs = s.rs := by
  unfold State.loadRom
  split <;> simp

@[simp] theorem State.loadRom_agenda (s : State) (image : List Byte) :
    (s.loadRom image).agenda = s.agenda := by
  unfold State.loadRom
  split <;> simp

@[simp] theorem State.loadRom_hostStepped (s : State) (image : List Byte) :
    (s.loadRom image).hostStepped = s.hostStepped := by
  unfold State.loadRom
  split <;> simp

theorem Served.keeps_turn {s t : State} {op : HostOp} (h : Served s op t) :
    t.agenda = s.agenda ∧ t.hostStepped = s.hostStepped := by
  cases h <;> simp

theorem Served.ne_execute {s t : State} {op : HostOp} (h : Served s op t) : op ≠ .execute := by
  rintro rfl
  cases h with
  | badIndex _ hop => simp at hop

/-- Settles O60: each kind of move in turn; only a step writes the note of who stepped. -/
theorem hostOperationsTakeTheirTurn : Obligations.HostOperationsTakeTheirTurn := by
  refine ⟨fun s op rest hagenda => ?_, fun _ => rfl, fun s t hstep => ?_⟩
  · have hmv := nextMove_of_agenda_cons hagenda
    rw [step_host (by rw [hmv]), hmv]
  · rcases step_inv hstep with ⟨hmv, hrs, h⟩ | ⟨hmv, hrs, rfl⟩ | ⟨hmv, h⟩ | ⟨op, hmv, hserved⟩
    · simpa [hmv, hrs] using execute_keeps_turn h
    · simp [hmv, hrs]
    · simpa [hmv] using execute_keeps_turn h
    · obtain ⟨hagenda, hnote⟩ := hserved.keeps_turn
      have hne := hserved.ne_execute
      rw [hmv]
      refine ⟨hagenda, ?_⟩
      split
      · next hclock _ => cases hclock
      · next hexecute => exact absurd (Move.host.inj hexecute) hne
      · simpa using hnote

/-! ### The run state -/

/-- The diagnostics new in `t` are the one of HALT or of a fault. -/
def Ended (s t : State) : Prop :=
  (∃ p, t.diags = s.diags ++ [.halt p]) ∨ ∃ c, t.diags = s.diags ++ [.fault c]

/-- A completed instruction stops the machine exactly when it is HALT; the others add at most warnings. -/
theorem Completes.rs_cases {s t : State} {ins : Instr} (h : Completes s ins t) :
    (t.rs = .stopped ∧ Ended s t) ∨ (t.rs = s.rs ∧ ¬ Ended s t) := by
  cases h with
  | halt => exact .inl ⟨rfl, .inl ⟨s.pc, rfl⟩⟩
  | write i | bcd i _ => exact .inr (by by_cases hm : s.m = .rom <;> simp [Ended, hm])
  | skipEq i j | skipNeq i j => exact .inr (by split <;> simp [Ended])
  | _ => exact .inr (by simp [Ended])

theorem raise_ended (s : State) (c : Cause) : Ended s (s.raise c) := .inr ⟨c, rfl⟩

theorem execute_rs_cases {s t : State} (h : execute s = .next t) :
    (t.rs = .stopped ∧ Ended s t) ∨ (t.rs = s.rs ∧ ¬ Ended s t) := by
  rcases execute_inv h with ⟨ins, hexec⟩ | ⟨c, rfl⟩
  · rcases exec_inv hexec with hdone | ⟨c, -, rfl⟩
    · exact hdone.rs_cases
    · exact .inl ⟨rfl, raise_ended s c⟩
  · exact .inl ⟨rfl, raise_ended s c⟩

/-- A step leaves a Stopped machine Stopped, and stops a Running one exactly when it ended in HALT or a
fault. -/
theorem execute_rs {s t : State} (h : execute s = .next t) :
    (s.rs = .stopped → t.rs = .stopped) ∧ (s.rs = .running → (t.rs = .stopped ↔ Ended s t)) := by
  rcases execute_rs_cases h with ⟨hrs, hended⟩ | ⟨hrs, hgoes⟩
  · exact ⟨fun _ => hrs, fun _ => iff_of_true hrs hended⟩
  · exact ⟨fun hs => hrs.trans hs, fun hs => iff_of_false (by simp [hrs, hs]) hgoes⟩

theorem Served.rs_eq {s t : State} {op : HostOp} (h : Served s op t) (hstart : op ≠ .start)
    (hstop : op ≠ .stop) : t.rs = s.rs := by
  cases h with
  | start => contradiction
  | stop => contradiction
  | _ => simp

/-- Settles O53: the ticks and the notes before a move keep RS and the diagnostics. -/
theorem runStateChangesOnlyAsGiven : Obligations.RunStateChangesOnlyAsGiven := by
  intro s t hstep
  refine ⟨fun hmv => ?start, fun hmv => ?stop, fun hmv => ?steps,
    fun hstart hstop hclock hexecute => ?others⟩
  case start =>
    rw [step_host hmv] at hstep
    cases hstep
    exact ⟨rfl, rfl⟩
  case stop =>
    rw [step_host hmv, serve_stop] at hstep
    cases hstep
    refine ⟨rfl, fun hrs => ?_⟩
    rw [elapse_stopped hrs, State.stop, setRunState_of_rs_eq (by exact hrs)]
  case steps =>
    have hstepped (byHost : Bool)
        (h : execute ((s.elapse.setAgenda (nextMove s).2).noteStep byHost) = .next t) :
        (s.rs = .stopped → t.rs = .stopped) ∧ (s.rs = .running → (t.rs = .stopped ↔ Ended s t)) := by
      simpa [Ended] using execute_rs h
    rcases step_inv hstep with ⟨-, -, h⟩ | ⟨-, hrs, rfl⟩ | ⟨-, h⟩ | ⟨op, hop, hserved⟩
    · exact hstepped false h
    · exact ⟨fun _ => by simpa using hrs, fun hrun => by simp [hrs] at hrun⟩
    · exact hstepped true h
    · rcases hmv with hmv | hmv <;> rw [hmv] at hop <;> cases hop
      exact absurd rfl hserved.ne_execute
  case others =>
    rcases step_inv hstep with ⟨hmv, -, -⟩ | ⟨hmv, -, -⟩ | ⟨hmv, -⟩ | ⟨op, hop, hserved⟩
    · exact absurd hmv hclock
    · exact absurd hmv hclock
    · exact absurd hmv hexecute
    · rw [hop] at hstart hstop
      rw [hserved.rs_eq (fun h => hstart (congrArg _ h)) (fun h => hstop (congrArg _ h))]
      simp

end Sys2Proof.Machine
end
